-- ==== Sys2Proof/Word.lean ====
section
/-! DEFINITION. The bit-vector types of the block: bytes, the 16-bit data register and readings, the 12-bit step word
(00_scope.md R7, 30_encoding.md R40). -/

namespace Sys2Proof

/-- An input byte, `BYTE_W` = 8 bits, bit 7 most significant (00_scope.md R7, 20_memory.md R26). -/
abbrev Byte := BitVec 8

/-- The width of the data register `low`: `ACC_W` = 16 bits, unsigned (00_scope.md R7, 10_state.md R12). -/
abbrev Word := BitVec 16

/-- An emitted distance: `READING_W` = 16 bits, unsigned (00_scope.md R7, 41_payload.md R55). -/
abbrev Reading := BitVec 16

/-- The step word `W[11:0]` (30_encoding.md R40). -/
abbrev StepWord := BitVec 12

end Sys2Proof
end

