-- ==== Sys2Proof/Config.lean ====
section
/-! DEFINITION. The parameters of the block (00_scope.md R7). R7 leaves none of them open, and no operation has an open
result (42_step_and_stream.md R58), so there is no free value here. -/

namespace Sys2Proof.Config

/-- `SYNC1`, the first sync byte, the character `$` (00_scope.md R7, 30_encoding.md R38). -/
def sync1 : Byte := 0x24#8

/-- `SYNC2`, the second sync byte, the character `M` (00_scope.md R7, 30_encoding.md R38). -/
def sync2 : Byte := 0x4D#8

/-- `FRAME_LEN`, the bytes of one frame (00_scope.md R7, 30_encoding.md R36). -/
def frameLen : Nat := 4

/-- The shift of the combination rule (41_payload.md R53). -/
def combineShift : Nat := 8

/-- The mask of the combination rule, applied AFTER the shift: `COMBINE = MASKED` (41_payload.md R53, 00_scope.md R7). -/
def combineMask : Word := 0x00FF#16

/-- DESIGN CHOICE (log entry 4); the value itself is safe, no meaning reads it: what `in_byte` carries in a step for which the environment has presented no sample.
Such a step is a `NoByte` step and `in_byte` is ignored in it (20_memory.md R22, R34). -/
def idleByte : Byte := 0x00#8

/-- DESIGN CHOICE (log entry 1), unsafe: what `low` holds in `State.reset`. The spec: "arbitrary at power-on" (10_state.md
R18). No obligation rests on this value; statements about runs hold for every value. -/
def powerOnLow : Word := 0x0000#16

end Sys2Proof.Config
end

