-- ==== Sys2Proof/Syntax.lean ====
section
/-! DEFINITION. The control states (10_state.md R10) and the eight operations of the decode map (30_encoding.md R41), one
constructor per row of spec/opcode_table.json. -/

namespace Sys2Proof

/-- ParserState, the control state `state`: exactly one of four values (10_state.md R10). -/
inductive ParserState where
  /-- Searching for the first sync byte. -/
  | idle
  /-- The previous byte was accepted as first sync byte; the next one is tested for the second. -/
  | sawSync1
  /-- The sync marker was consumed; the next byte, whatever it is, is the low payload byte. -/
  | awaitingLow
  /-- The low byte is in `low`; the next byte, whatever it is, completes the frame. -/
  | awaitingHigh
  deriving DecidableEq, Repr

/-- The eight operations (30_encoding.md R41). The fields are the bits of the step word that the row does not fix, so that
an operation stands for exactly one step word. Fields that the spec says are not looked at are carried by the syntax and
read by no meaning (log entry 6). -/
inductive Instr where
  /-- RESET, `1vssbbbbbbbb` (70_reset_and_hazards.md R84); `in_valid`, `state` and `in_byte` are not looked at. -/
  | reset (inValid : Bool) (st : ParserState) (b : Byte)
  /-- NOBYTE, `00ssbbbbbbbb` (42_step_and_stream.md R56); `state` and `in_byte` are not looked at. -/
  | noByte (st : ParserState) (b : Byte)
  /-- IDLE.SYNC1, `010000100100` (40_sync_detect.md R47). -/
  | idleSync1
  /-- IDLE.SKIP, `0100bbbbbbbb` with `b != 0x24` (40_sync_detect.md R48); the byte is not kept. -/
  | idleSkip (b : Byte)
  /-- SYNC1.SYNC2, `010101001101` (40_sync_detect.md R49). -/
  | sync1Sync2
  /-- SYNC1.RESYNC, `0101bbbbbbbb` with `b != 0x4D` (40_sync_detect.md R50); the byte is not kept. -/
  | sync1Resync (b : Byte)
  /-- LOW.CAPTURE, `0110bbbbbbbb` (41_payload.md R51). -/
  | lowCapture (b : Byte)
  /-- HIGH.EMIT, `0111bbbbbbbb` (41_payload.md R52). -/
  | highEmit (b : Byte)
  deriving DecidableEq, Repr

end Sys2Proof
end

