-- ==== Sys2Proof/WellFormed.lean ====
section
/-! DEFINITION. Which terms of `Instr` are operations of the decode map: the two "other" rows exclude the byte of the row
before them (30_encoding.md R41, R46). -/

namespace Sys2Proof

/-- An operation that some step word selects (30_encoding.md R41). -/
def Instr.wf : Instr → Bool
  | .reset _ _ _ => true
  | .noByte _ _ => true
  | .idleSync1 => true
  | .idleSkip b => b != Config.sync1
  | .sync1Sync2 => true
  | .sync1Resync b => b != Config.sync2
  | .lowCapture _ => true
  | .highEmit _ => true

end Sys2Proof
end

