-- ==== Sys2Proof/Decode.lean ====
section
/-! DEFINITION. The step word, its decoder and its encoder (30_encoding.md R40, R41), the decode map as a table of match and
mask values (R46), and the step word laid out in bytes (log entry 10). -/

namespace Sys2Proof

/-! ## The control state in two bits (10_state.md R11) -/

/-- The 2-bit code of a control state (10_state.md R11). -/
def ParserState.code : ParserState → BitVec 2
  | .idle => 0b00#2
  | .sawSync1 => 0b01#2
  | .awaitingLow => 0b10#2
  | .awaitingHigh => 0b11#2

/-- The control state of a 2-bit code; all four codes are used (10_state.md R11). -/
def ParserState.ofCode (c : BitVec 2) : ParserState :=
  if c = 0b00#2 then .idle
  else if c = 0b01#2 then .sawSync1
  else if c = 0b10#2 then .awaitingLow
  else .awaitingHigh

/-! ## The step word (30_encoding.md R40) -/

/-- `{rst, in_valid, state[1:0], byte[7:0]}` (30_encoding.md R40). -/
def packStepWord (rst inValid : Bool) (st : ParserState) (b : Byte) : StepWord :=
  BitVec.ofBool rst ++ BitVec.ofBool inValid ++ st.code ++ b

/-- `W[11]` (30_encoding.md R40). -/
def StepWord.rst (w : StepWord) : Bool := w.getLsbD 11

/-- `W[10]` (30_encoding.md R40). -/
def StepWord.inValid (w : StepWord) : Bool := w.getLsbD 10

/-- `W[9:8]` (30_encoding.md R40). -/
def StepWord.control (w : StepWord) : ParserState := ParserState.ofCode (w.extractLsb' 8 2)

/-- `W[7:0]` (30_encoding.md R40). -/
def StepWord.byte (w : StepWord) : Byte := w.extractLsb' 0 8

/-! ## Decoder and encoder (30_encoding.md R41) -/

/-- The operation of a `Byte(b)` event in a control state: the grid of 30_encoding.md R41 (R44: the meaning of a byte
depends on the control state and on nothing else). -/
def decodeByte (st : ParserState) (b : Byte) : Instr :=
  match st with
  | .idle => if b = Config.sync1 then .idleSync1 else .idleSkip b
  | .sawSync1 => if b = Config.sync2 then .sync1Sync2 else .sync1Resync b
  | .awaitingLow => .lowCapture b
  | .awaitingHigh => .highEmit b

/-- The operation a step word selects; no step word is illegal (30_encoding.md R41, R42). -/
def decode (w : StepWord) : Instr :=
  if StepWord.rst w then
    .reset (StepWord.inValid w) (StepWord.control w) (StepWord.byte w)
  else if StepWord.inValid w then
    decodeByte (StepWord.control w) (StepWord.byte w)
  else
    .noByte (StepWord.control w) (StepWord.byte w)

/-- The step word of an operation, from the patterns of 30_encoding.md R41. -/
def encode : Instr → StepWord
  | .reset v st b => BitVec.ofBool true ++ BitVec.ofBool v ++ st.code ++ b
  | .noByte st b => 0b00#2 ++ st.code ++ b
  | .idleSync1 => 0b010000100100#12
  | .idleSkip b => 0b0100#4 ++ b
  | .sync1Sync2 => 0b010101001101#12
  | .sync1Resync b => 0b0101#4 ++ b
  | .lowCapture b => 0b0110#4 ++ b
  | .highEmit b => 0b0111#4 ++ b

/-! ## The decode map as a table (30_encoding.md R41, R46) -/

/-- The mnemonic of an operation, as spec/opcode_table.json spells it (30_encoding.md R45). -/
def Instr.mnemonic : Instr → String
  | .reset _ _ _ => "RESET"
  | .noByte _ _ => "NOBYTE"
  | .idleSync1 => "IDLE.SYNC1"
  | .idleSkip _ => "IDLE.SKIP"
  | .sync1Sync2 => "SYNC1.SYNC2"
  | .sync1Resync _ => "SYNC1.RESYNC"
  | .lowCapture _ => "LOW.CAPTURE"
  | .highEmit _ => "HIGH.EMIT"

/-- One row of the decode map: "a step word `W` matches when `W & mask == match`" (30_encoding.md R46). -/
structure OpcodeRow where
  mnemonic : String
  matchBits : StepWord
  mask : StepWord
  /-- The words of the mask's pattern that the row does not select. -/
  excludes : List StepWord
  /-- The row's number in the decode map. -/
  priority : Nat
  /-- How many of the 4096 step words the row selects. -/
  wordsSelected : Nat
  deriving DecidableEq, Repr

/-- The eight rows with the match and mask values of 30_encoding.md R41. -/
def opcodeTable : List OpcodeRow :=
  [ ⟨"RESET", 0x800#12, 0x800#12, [], 1, 2048⟩,
    ⟨"NOBYTE", 0x000#12, 0xC00#12, [], 2, 1024⟩,
    ⟨"IDLE.SYNC1", 0x424#12, 0xFFF#12, [], 3, 1⟩,
    ⟨"IDLE.SKIP", 0x400#12, 0xF00#12, [0x424#12], 4, 255⟩,
    ⟨"SYNC1.SYNC2", 0x54D#12, 0xFFF#12, [], 5, 1⟩,
    ⟨"SYNC1.RESYNC", 0x500#12, 0xF00#12, [0x54D#12], 6, 255⟩,
    ⟨"LOW.CAPTURE", 0x600#12, 0xF00#12, [], 7, 256⟩,
    ⟨"HIGH.EMIT", 0x700#12, 0xF00#12, [], 8, 256⟩ ]

/-- The mask pattern alone (30_encoding.md R46). -/
def OpcodeRow.matchesMask (r : OpcodeRow) (w : StepWord) : Bool := w &&& r.mask == r.matchBits

/-- The mask pattern less the excluded words (30_encoding.md R46, first reading). -/
def OpcodeRow.selects (r : OpcodeRow) (w : StepWord) : Bool :=
  r.matchesMask w && !r.excludes.contains w

/-- The first row, in ascending priority, whose mask pattern matches (30_encoding.md R46, second reading). -/
def firstMatchingRow (w : StepWord) : Option OpcodeRow := opcodeTable.find? (·.matchesMask w)

/-! ## The step word in bytes

DESIGN CHOICE (log entry 10), safe: the step word "is not transmitted or stored anywhere" (30_encoding.md R40). For a reader
that wants bytes it is two of them, bits 7..0 first, then bits 11..8 with four zero bits above. -/

/-- Why a list of bytes is no step word. -/
inductive DecodeReject where
  /-- Fewer than two bytes: safe, raised by `decodeBytes` only. -/
  | tooFewBytes
  /-- A bit above bit 11 is set: safe, raised by `decodeBytes` only. -/
  | bitsAboveStepWord
  deriving DecidableEq, Repr

/-- Decode the step word at the head of a byte list; the rest of the list is given back. -/
def decodeBytes : List Byte → Except DecodeReject (Instr × List Byte)
  | lo :: hi :: rest =>
    if hi.extractLsb' 4 4 = 0#4 then .ok (decode (hi.extractLsb' 0 4 ++ lo), rest)
    else .error .bitsAboveStepWord
  | _ => .error .tooFewBytes

/-- The bytes of an operation's step word. -/
def encodeBytes (i : Instr) : List Byte :=
  [(encode i).extractLsb' 0 8, 0#4 ++ (encode i).extractLsb' 8 4]

/-- The low `nbits` bits of `w` laid out in bytes, at least the two of a step word. -/
def layOutWord (nbits w : Nat) : List Byte :=
  (List.range (max 2 ((nbits + 7) / 8))).map fun k => BitVec.ofNat 8 (w % 2 ^ nbits / 2 ^ (8 * k))

/-- The operation the decoder reads from an instruction whose bits are `w`, numbered as spec/opcode_table.json numbers them;
none where the decoder refuses, or where bytes are left over that are not zero. -/
def decodeTableWord (nbits w : Nat) : Option Instr :=
  match decodeBytes (layOutWord nbits w) with
  | .ok (i, rest) => if rest.all (· == 0#8) then some i else none
  | .error _ => none

end Sys2Proof
end

