-- ==== Sys2Proof/Machine/State.lean ====
section
/-! DEFINITION. The machine's state: the two registers of the block (10_state.md R9) and, as the model's own fields, what
crosses its ports (20_memory.md R22 to R24). The block has no memory (20_memory.md R20), no flag, no control or status
register (10_state.md R16), no trap state (60_exceptions.md R75) and no counter (60_exceptions.md R78). -/

namespace Sys2Proof.Machine

/-- One step's sample of the input ports (20_memory.md R22; the port list of R24). -/
structure PortIn where
  /-- `rst`: 1 makes the step's event `Reset` (70_reset_and_hazards.md R84). -/
  rst : Bool
  /-- `in_valid`: 1 with `rst == 0` makes it `Byte(in_byte)`. -/
  inValid : Bool
  /-- `in_byte`, bit 7 most significant (20_memory.md R26). -/
  inByte : Byte
  deriving DecidableEq, Repr

/-- The output ports of one step (20_memory.md R24). -/
structure PortOut where
  /-- `out_valid`: this step emits a reading. -/
  outValid : Bool
  /-- `out_reading`: the reading, `0x0000` when `out_valid == 0`. -/
  outReading : Reading
  deriving DecidableEq, Repr

/-- The state of the block and of its ports' traffic. -/
structure State where
  /-- The control-state register `state` (10_state.md R10, R11). -/
  state : ParserState
  /-- The data register `low` (10_state.md R12, R13). -/
  low : Word
  /-- The MODEL's own field (log entry 3): the samples the environment has yet to present at the input ports, next first. -/
  pending : List PortIn
  /-- The MODEL's own field (log entry 5): the output of every step taken so far, oldest first (42_step_and_stream.md R59).
  The block keeps no copy of a reading (10_state.md R14) and no operation reads this field. -/
  outputs : List (Option Reading)
  deriving DecidableEq, Repr

/-- The block raises no exception, fault or error: "The set of exception causes is empty" (60_exceptions.md R70). -/
inductive Fault where
  deriving DecidableEq, Repr

/-- Why a step is refused. "No step is refused" (42_step_and_stream.md R58): no meaning answers one. -/
inductive Refusal where
  /-- Raised by `exec`'s arm of an operation that has no meaning yet; safe. No arm raises it now. -/
  | notModelled (mnemonic : String)
  deriving DecidableEq, Repr

/-- The reset state `(Idle, x)` with a given list of port samples to come (70_reset_and_hazards.md R85); `x`, what `low`
holds, is "a free input of the launch (any 16-bit value)" (10_state.md R18). -/
def State.launch (x : Word) (ins : List PortIn) : State :=
  { state := .idle, low := x, pending := ins, outputs := [] }

/-- The machine right after reset: `state` is `Idle` (10_state.md R18); nothing presented and nothing emitted yet.
DESIGN CHOICE (log entry 1), unsafe: `low`, which the spec leaves arbitrary, is `Config.powerOnLow` here. -/
def State.reset : State := State.launch Config.powerOnLow []

end Sys2Proof.Machine
end

