-- ==== Sys2Proof/Machine/Ops.lean ====
section
/-! DEFINITION. The shared operations: reading and writing the two registers, emitting, presenting and consuming a sample of
the input ports, the step word of a step. There is no operation over memory (20_memory.md R20) and none that takes an
exception or returns from one: the block has no trap entry and no trap return (60_exceptions.md R75, R76). -/

namespace Sys2Proof.Machine

/-- `state <- st` (00_scope.md section 6). -/
def State.writeState (s : State) (st : ParserState) : State := { s with state := st }

/-- `low <- v` (00_scope.md section 6); written by LOW.CAPTURE only (10_state.md R12). -/
def State.writeLow (s : State) (v : Word) : State := { s with low := v }

/-- The output of the step, one entry per step (00_scope.md section 6 `emit`; 42_step_and_stream.md R59). -/
def State.emit (s : State) (o : Option Reading) : State := { s with outputs := s.outputs ++ [o] }

/-- What the input ports carry when the environment has presented nothing: no reset, no byte (20_memory.md R34; log entry 4). -/
def PortIn.quiet : PortIn := { rst := false, inValid := false, inByte := Config.idleByte }

/-- The sample at the input ports in the coming step. -/
def State.ports (s : State) : PortIn :=
  match s.pending with
  | [] => PortIn.quiet
  | p :: _ => p

/-- The sample is gone after its step: consumption is destructive, there is no push back (20_memory.md R21). -/
def State.consume (s : State) : State := { s with pending := s.pending.tail }

/-- "The concatenation of the step's inputs with the current state" (30_encoding.md R40). -/
def State.stepWord (s : State) : StepWord :=
  packStepWord s.ports.rst s.ports.inValid s.state s.ports.inByte

/-- The machine whose coming step has the step word `w`: its state bits in `state`, its input bits at the ports, before
whatever else is pending. -/
def State.placeStepWord (s : State) (w : StepWord) : State :=
  { s with
    state := StepWord.control w
    pending := { rst := StepWord.rst w, inValid := StepWord.inValid w, inByte := StepWord.byte w } :: s.pending }

end Sys2Proof.Machine
end

