-- ==== Sys2Proof/Machine/NonByte.lean ====
section
/-! DEFINITION. The two operations that no byte selects: RESET (70_reset_and_hazards.md R84) and NOBYTE
(42_step_and_stream.md R56). -/

namespace Sys2Proof.Machine

/-- RESET: `state <- Idle`; `low` is not written (70_reset_and_hazards.md R84). -/
def execReset (s : State) : Host.Outcome State Fault Refusal :=
  .next ((s.writeState .idle).emit none)

/-- NOBYTE: `state` and `low` keep their values, output `none` (42_step_and_stream.md R56). -/
def execNoByte (s : State) : Host.Outcome State Fault Refusal :=
  .next (s.emit none)

end Sys2Proof.Machine
end

