-- ==== Sys2Proof/Machine/Operands.lean ====
section
/-! DEFINITION. The operands of the payload operations and the combination rule (30_encoding.md R43, 41_payload.md R53,
R54). Every operand is a whole byte; none is sign-extended, scaled or offset. -/

namespace Sys2Proof.Machine

/-- `zext_16(b)` (00_scope.md section 6, 41_payload.md R54). -/
def zext16 (b : Byte) : Word := b.setWidth 16

/-- `((zext_16(b) << 8) & 0x00FF)`, the high byte's term, computed on 16 bits (41_payload.md R53, R54). -/
def highTerm (b : Byte) : Word := (zext16 b <<< Config.combineShift) &&& Config.combineMask

/-- `combine(low, b) = low | ((zext_16(b) << 8) & 0x00FF)` (41_payload.md R53). -/
def combine (low : Word) (b : Byte) : Reading := low ||| highTerm b

end Sys2Proof.Machine
end

