-- ==== Sys2Proof/Machine/Payload.lean ====
section
/-! DEFINITION. The payload extraction operations (41_payload.md R51, R52). -/

namespace Sys2Proof.Machine

/-- LOW.CAPTURE: `low <- zext_16(b); state <- AwaitingHigh` (41_payload.md R51). -/
def execLowCapture (b : Byte) (s : State) : Host.Outcome State Fault Refusal :=
  .next (((s.writeLow (zext16 b)).writeState .awaitingHigh).emit none)

/-- HIGH.EMIT: `emit(combine(low, b)); state <- Idle`; `low` is read as it stood at the start of the step and is not
written (41_payload.md R52, R53). -/
def execHighEmit (b : Byte) (s : State) : Host.Outcome State Fault Refusal :=
  .next ((s.writeState .idle).emit (some (combine s.low b)))

end Sys2Proof.Machine
end

