-- ==== Sys2Proof/Machine/SyncDetect.lean ====
section
/-! DEFINITION. The sync-marker detection operations (40_sync_detect.md R47 to R50). Each writes `state`, leaves `low`, and
outputs `none`. Which of them a step runs is the decoder's matter; a meaning is its rule's pseudocode (log entry 11). -/

namespace Sys2Proof.Machine

/-- IDLE.SYNC1: accept the first sync byte (40_sync_detect.md R47). -/
def execIdleSync1 (s : State) : Host.Outcome State Fault Refusal :=
  .next ((s.writeState .sawSync1).emit none)

/-- IDLE.SKIP: ignore a noise byte (40_sync_detect.md R48). -/
def execIdleSkip (s : State) : Host.Outcome State Fault Refusal :=
  .next ((s.writeState .idle).emit none)

/-- SYNC1.SYNC2: accept the second sync byte (40_sync_detect.md R49). -/
def execSync1Sync2 (s : State) : Host.Outcome State Fault Refusal :=
  .next ((s.writeState .awaitingLow).emit none)

/-- SYNC1.RESYNC: give up the candidate; the byte is consumed, not re-examined (40_sync_detect.md R50, 90_conflicts.md C1). -/
def execSync1Resync (s : State) : Host.Outcome State Fault Refusal :=
  .next ((s.writeState .idle).emit none)

end Sys2Proof.Machine
end

