-- ==== Sys2Proof/Machine/Dispatch.lean ====
section
/-! DEFINITION. The dispatcher: one arm per operation (30_encoding.md R41). -/

namespace Sys2Proof.Machine

/-- The meaning of each operation. -/
def exec (i : Instr) (s : State) : Host.Outcome State Fault Refusal :=
  match i with
  | .reset _ _ _ => Sys2Proof.Machine.execReset s
  | .noByte _ _ => Sys2Proof.Machine.execNoByte s
  | .idleSync1 => Sys2Proof.Machine.execIdleSync1 s
  | .idleSkip _ => Sys2Proof.Machine.execIdleSkip s
  | .sync1Sync2 => Sys2Proof.Machine.execSync1Sync2 s
  | .sync1Resync _ => Sys2Proof.Machine.execSync1Resync s
  | .lowCapture b => Sys2Proof.Machine.execLowCapture b s
  | .highEmit b => Sys2Proof.Machine.execHighEmit b s

end Sys2Proof.Machine
end

