-- ==== Sys2Proof/Machine/Step.lean ====
section
/-! DEFINITION. One step: the step word of the ports and the control state is decoded, the sample is consumed, the
operation runs (00_scope.md R5, 42_step_and_stream.md R57). -/

namespace Sys2Proof.Machine

/-- One step of the block (42_step_and_stream.md R57); three outcomes by the host's interface, of which only `next` occurs
(R58). -/
def step (s : State) : Host.Outcome State Fault Refusal :=
  exec (decode s.stepWord) s.consume

/-- `s` with the step word `w` (bits above `nbits` zero) set up so that the very next step runs it: its state bits in
`state`, its input bits as the next sample (log entry 7). A number that is no step word changes nothing. -/
def State.withFetchWord (s : State) (nbits w : Nat) : State :=
  if w % 2 ^ nbits < 2 ^ 12 then s.placeStepWord (BitVec.ofNat 12 (w % 2 ^ nbits)) else s

end Sys2Proof.Machine
end

