-- ==== Sys2Proof/Machine/Flags.lean ====
section
/-! DEFINITION. The block has no status flag and no condition code (10_state.md R16), so no flag computation. What comes
nearest is the output strobe `out_valid`, which is no latched flag (60_exceptions.md R73): it and `out_reading` are
computed here from a step's output. -/

namespace Sys2Proof.Machine

/-- `out_valid` of a step with output `o` (20_memory.md R24). -/
def outValidOf (o : Option Reading) : Bool := o.isSome

/-- `out_reading` of a step with output `o`: the reading, or `0x0000` (20_memory.md R24). -/
def outReadingOf (o : Option Reading) : Reading := o.getD 0x0000#16

/-- The output ports of a step with output `o` (20_memory.md R24). -/
def portsOf (o : Option Reading) : PortOut := { outValid := outValidOf o, outReading := outReadingOf o }

end Sys2Proof.Machine
end

