-- ==== Sys2Proof/Machine/Stream.lean ====
section
/-! DEFINITION. Events and streams as 42_step_and_stream.md states them: the event of a port sample, the step function of
R57 over `(state, low)` and an event, its fold (R59), and the output ports as a function of state and inputs (20_memory.md
R24). These stand beside the machine as the clear form it is stated to refine; the step does not call them. -/

namespace Sys2Proof.Machine

/-- The event of a step: exactly one of three kinds (00_scope.md R5). -/
inductive Event where
  /-- `Reset`. -/
  | reset
  /-- `NoByte`. -/
  | noByte
  /-- `Byte(b)`, one call of the source's `feed(byte)`. -/
  | byte (b : Byte)
  deriving DecidableEq, Repr

/-- The event of a port sample; `Reset` before `Byte` before `NoByte` (20_memory.md R22, 60_exceptions.md R74). -/
def PortIn.event (p : PortIn) : Event :=
  if p.rst then .reset else if p.inValid then .byte p.inByte else .noByte

/-- The port sample of a byte. -/
def PortIn.ofByte (b : Byte) : PortIn := { rst := false, inValid := true, inByte := b }

/-- A port sample without a byte; `in_byte` carries `junk`, which is ignored (20_memory.md R22). -/
def PortIn.gap (junk : Byte) : PortIn := { rst := false, inValid := false, inByte := junk }

/-- A port sample of a byte stream, one sample a byte (30_encoding.md R45). -/
def samples (bs : List Byte) : List PortIn := bs.map PortIn.ofByte

/-- The byte of a `Byte` event. -/
def Event.byte? : Event → Option Byte
  | .reset => none
  | .noByte => none
  | .byte b => some b

/-- The `step` of 42_step_and_stream.md R57, row for row. -/
def feed (state : ParserState) (low : Word) (ev : Event) : (ParserState × Word) × Option Reading :=
  match ev with
  | .reset => ((.idle, low), none)
  | .noByte => ((state, low), none)
  | .byte b =>
    match state with
    | .idle => if b = 0x24#8 then ((.sawSync1, low), none) else ((.idle, low), none)
    | .sawSync1 => if b = 0x4D#8 then ((.awaitingLow, low), none) else ((.idle, low), none)
    | .awaitingLow => ((.awaitingHigh, zext16 b), none)
    | .awaitingHigh => ((.idle, low), some (low ||| ((zext16 b <<< 8) &&& 0x00FF#16)))

/-- The `run` of 42_step_and_stream.md R59: the fold of `feed`, one output per event. -/
def feedAll (state : ParserState) (low : Word) : List Event → (ParserState × Word) × List (Option Reading)
  | [] => ((state, low), [])
  | ev :: rest =>
    let r := feed state low ev
    let t := feedAll r.1.1 r.1.2 rest
    (t.1, r.2 :: t.2)

/-- The readings of a list of outputs: "its `some` entries in order" (42_step_and_stream.md R59). -/
def readings (outs : List (Option Reading)) : List Reading := outs.filterMap id

/-- The output of the coming step, a function of the state at its start and of its inputs (20_memory.md R24). -/
def State.stepOutput (s : State) : Option Reading :=
  match decode s.stepWord with
  | .reset _ _ _ => none
  | .noByte _ _ => none
  | .idleSync1 => none
  | .idleSkip _ => none
  | .sync1Sync2 => none
  | .sync1Resync _ => none
  | .lowCapture _ => none
  | .highEmit b => some (combine s.low b)

/-- The output ports during the coming step: combinational (20_memory.md R24, 70_reset_and_hazards.md R97). -/
def State.outPort (s : State) : PortOut := portsOf s.stepOutput

end Sys2Proof.Machine
end

