-- ==== Sys2Proof/Safety.lean ====
section
/-! DEFINITION. What counts as a run and as a safe state, in the terms the obligations use. -/

namespace Sys2Proof.Machine

/-- `s` with the samples `ins`, and no others, to come at the input ports. -/
def State.presented (s : State) (ins : List PortIn) : State := { s with pending := ins }

/-- The state after the run in which the environment presents `ins` from `s` on: one step per sample, a run is over when its
list is exhausted (42_step_and_stream.md R68). (Every such run answers a next state; that is an obligation. A run that did
not would be read as no change here.) -/
def State.after (s : State) (ins : List PortIn) : State :=
  match Sys2Proof.core.run ins.length (s.presented ins) with
  | .next t => t
  | .fault _ => s
  | .refused _ => s

/-- The outputs of that run alone, one per sample. -/
def State.outputsOf (s : State) (ins : List PortIn) : List (Option Reading) :=
  (s.after ins).outputs.drop s.outputs.length

/-- A safe state. While a high byte is awaited, `low[15:8] == 0x00` (10_state.md R19); every reading emitted so far lies in
`0x0000..0x00FF` (41_payload.md R55). -/
structure Inv (s : State) : Prop where
  lowHoldsAByte : s.state = .awaitingHigh → s.low.extractLsb' 8 8 = 0x00#8
  readingsAreBytes : ∀ v : Reading, some v ∈ s.outputs → v ≤ 0x00FF#16

end Sys2Proof.Machine
end

