-- ==== Sys2Proof/Certificates/Slice0/Obligations.lean ====
section
/-! DEFINITION. The statements for the provers. Every statement speaks of `Sys2Proof.Machine.exec`, `step`, or runs of
`Sys2Proof.core`; next states are written out field by field, so that each equation is also a frame: what it does not change
is unchanged. The block has no memory (20_memory.md R20), so no statement frames one. -/

open Sys2Proof Sys2Proof.Machine

/-! ## Encoding -/

/-- 30_encoding.md R40: the fields of a step's step word, and which of them each value of `rst` and `in_valid` makes
irrelevant. -/
def Obligations.StepWordIsPortsAndControlState : Prop :=
  (∀ (s : State) (p : PortIn) (rest : List PortIn), s.pending = p :: rest →
    s.stepWord.getLsbD 11 = p.rst ∧ s.stepWord.getLsbD 10 = p.inValid ∧
    (s.state = .idle ↔ s.stepWord.extractLsb' 8 2 = 0b00#2) ∧
    (s.state = .sawSync1 ↔ s.stepWord.extractLsb' 8 2 = 0b01#2) ∧
    (s.state = .awaitingLow ↔ s.stepWord.extractLsb' 8 2 = 0b10#2) ∧
    (s.state = .awaitingHigh ↔ s.stepWord.extractLsb' 8 2 = 0b11#2) ∧
    s.stepWord.extractLsb' 0 8 = p.inByte) ∧
  ∀ (s : State) (w w' : StepWord),
    (w.getLsbD 11 = true → w'.getLsbD 11 = true → exec (decode w) s = exec (decode w') s) ∧
    (w.getLsbD 11 = false → w.getLsbD 10 = false → w'.getLsbD 11 = false → w'.getLsbD 10 = false →
      exec (decode w) s = exec (decode w') s) ∧
    (w.getLsbD 11 = false → w.getLsbD 10 = true →
      decode w = decodeByte (ParserState.ofCode (w.extractLsb' 8 2)) (w.extractLsb' 0 8))

/-- 30_encoding.md R41: words written out from the patterns of the decode map. -/
def Obligations.WrittenOutWordsDecode : Prop :=
  decode 0b100000000000#12 = .reset false .idle 0x00#8 ∧
  decode 0b001100100100#12 = .noByte .awaitingHigh 0x24#8 ∧
  decode 0b010000100100#12 = .idleSync1 ∧
  decode 0b010001001101#12 = .idleSkip 0x4D#8 ∧
  decode 0b010101001101#12 = .sync1Sync2 ∧
  decode 0b010100100100#12 = .sync1Resync 0x24#8 ∧
  decode 0b011010000000#12 = .lowCapture 0x80#8 ∧
  decode 0b011111111111#12 = .highEmit 0xFF#8

/-- 30_encoding.md R41: the map is total and unambiguous, the decoder follows it, and each row selects as many words as the
table says. -/
def Obligations.EveryStepWordSelectsExactlyOneRow : Prop :=
  (∀ w : StepWord, ∃ r ∈ opcodeTable, r.selects w = true ∧ r.mnemonic = (decode w).mnemonic ∧
    ∀ r' ∈ opcodeTable, r'.selects w = true → r' = r) ∧
  ∀ r ∈ opcodeTable,
    ((List.range 4096).filter fun n => r.selects (BitVec.ofNat 12 n)).length = r.wordsSelected

/-- 30_encoding.md R46: honouring `excludes` and taking the first match in ascending `priority` are the same. -/
def Obligations.PriorityReadingEqualsExclusionReading : Prop :=
  (opcodeTable.map (·.priority) = [1, 2, 3, 4, 5, 6, 7, 8]) ∧
  ∀ (w : StepWord) (r : OpcodeRow),
    firstMatchingRow w = some r ↔ r ∈ opcodeTable ∧ r.selects w = true

/-- Decode and encode agree: on step words, and on their layout in bytes (the model's choice, log entry 10). That the bits a
row does not look at come back too rests on their being fields of its constructor (the model's choice, log entry 6). -/
def Obligations.DecodeOfEncodeIsTheOperation : Prop :=
  ∀ i : Instr, i.wf = true →
    decode (encode i) = i ∧ ∀ rest : List Byte, decodeBytes (encodeBytes i ++ rest) = .ok (i, rest)

/-- 30_encoding.md R42: no step word is illegal; each decodes to a well-formed operation. That its encoding is that word also
where the row does not look at some of its bits rests on those bits being fields of the constructor (the model's choice, log
entry 6). -/
def Obligations.EncodeOfDecodeIsTheStepWord : Prop :=
  ∀ w : StepWord, (decode w).wf = true ∧ encode (decode w) = w

/-! ## The eight operations: selection, result and frame -/

/-- 70_reset_and_hazards.md R84. -/
def Obligations.ResetGoesToIdleAndKeepsLow : Prop :=
  (∀ w : StepWord, (∃ v st b, decode w = .reset v st b) ↔ w.getLsbD 11 = true) ∧
  ∀ (s : State) (v : Bool) (st : ParserState) (b : Byte),
    exec (.reset v st b) s = .next
      { state := .idle, low := s.low, pending := s.pending, outputs := s.outputs ++ [none] }

/-- 42_step_and_stream.md R56. -/
def Obligations.NoByteChangesNeitherRegister : Prop :=
  (∀ w : StepWord, (∃ st b, decode w = .noByte st b) ↔ w.getLsbD 11 = false ∧ w.getLsbD 10 = false) ∧
  ∀ (s : State) (st : ParserState) (b : Byte),
    exec (.noByte st b) s = .next
      { state := s.state, low := s.low, pending := s.pending, outputs := s.outputs ++ [none] }

/-- 40_sync_detect.md R47. -/
def Obligations.IdleSync1AcceptsTheFirstSyncByte : Prop :=
  (∀ w : StepWord, decode w = .idleSync1 ↔ w = 0b010000100100#12) ∧
  ∀ s : State, exec .idleSync1 s = .next
    { state := .sawSync1, low := s.low, pending := s.pending, outputs := s.outputs ++ [none] }

/-- 40_sync_detect.md R48. -/
def Obligations.IdleSkipStaysInIdle : Prop :=
  (∀ (w : StepWord) (b : Byte), decode w = .idleSkip b ↔
    w.extractLsb' 8 4 = 0b0100#4 ∧ w.extractLsb' 0 8 = b ∧ b ≠ 0x24#8) ∧
  ∀ (s : State) (b : Byte), exec (.idleSkip b) s = .next
    { state := .idle, low := s.low, pending := s.pending, outputs := s.outputs ++ [none] }

/-- 40_sync_detect.md R49; the corner case: from `AwaitingLow` there is no way back to `Idle` other than through both payload
bytes or a reset. -/
def Obligations.Sync1Sync2AcceptsTheSecondSyncByte : Prop :=
  (∀ w : StepWord, decode w = .sync1Sync2 ↔ w = 0b010101001101#12) ∧
  (∀ s : State, exec .sync1Sync2 s = .next
    { state := .awaitingLow, low := s.low, pending := s.pending, outputs := s.outputs ++ [none] }) ∧
  ∀ (s : State) (ins : List PortIn), s.state = .awaitingLow → (∀ p ∈ ins, p.event ≠ .reset) →
    (ins.filterMap fun p => p.event.byte?).length ≤ 1 → (s.after ins).state ≠ .idle

/-- 40_sync_detect.md R50; the corner cases are the streams of `0x24` bytes that the rule spells out. -/
def Obligations.Sync1ResyncReturnsToIdle : Prop :=
  (∀ (w : StepWord) (b : Byte), decode w = .sync1Resync b ↔
    w.extractLsb' 8 4 = 0b0101#4 ∧ w.extractLsb' 0 8 = b ∧ b ≠ 0x4D#8) ∧
  (∀ (s : State) (b : Byte), exec (.sync1Resync b) s = .next
    { state := .idle, low := s.low, pending := s.pending, outputs := s.outputs ++ [none] }) ∧
  ∀ (x : Word) (l h : Byte),
    ((State.launch x []).after (samples [0x24#8, 0x24#8])).state = .idle ∧
    ((State.launch x []).after (samples [0x24#8, 0x24#8, 0x24#8])).state = .sawSync1 ∧
    readings ((State.launch x []).after (samples [0x24#8, 0x24#8, 0x4D#8, l, h])).outputs = []

/-- 41_payload.md R51; no other operation writes `low`. -/
def Obligations.LowCaptureStoresTheByteZeroExtended : Prop :=
  (∀ (w : StepWord) (b : Byte), decode w = .lowCapture b ↔
    w.extractLsb' 8 4 = 0b0110#4 ∧ w.extractLsb' 0 8 = b) ∧
  (∀ (s : State) (b : Byte), exec (.lowCapture b) s = .next
    { state := .awaitingHigh, low := 0x00#8 ++ b, pending := s.pending, outputs := s.outputs ++ [none] }) ∧
  ∀ (s : State) (i : Instr), (∀ b, i ≠ .lowCapture b) → ∃ t, exec i s = .next t ∧ t.low = s.low

/-- 41_payload.md R52: the output is the combination rule's value, which equals `low`; no other operation emits. -/
def Obligations.HighEmitEmitsLow : Prop :=
  (∀ (w : StepWord) (b : Byte), decode w = .highEmit b ↔
    w.extractLsb' 8 4 = 0b0111#4 ∧ w.extractLsb' 0 8 = b) ∧
  (∀ (s : State) (b : Byte),
    exec (.highEmit b) s = .next
      { state := .idle, low := s.low, pending := s.pending,
        outputs := s.outputs ++ [some (s.low ||| ((b.setWidth 16 <<< 8) &&& 0x00FF#16))] } ∧
    exec (.highEmit b) s = .next
      { state := .idle, low := s.low, pending := s.pending, outputs := s.outputs ++ [some s.low] }) ∧
  ∀ (s : State) (i : Instr), (∀ b, i ≠ .highEmit b) →
    ∃ t, exec i s = .next t ∧ t.outputs = s.outputs ++ [none]

/-! ## The combination rule and the arithmetic -/

/-- 41_payload.md R53. -/
def Obligations.CombinationEqualsLow : Prop :=
  ∀ (low : Word) (b : Byte),
    combine low b = low ||| ((b.setWidth 16 <<< 8) &&& 0x00FF#16) ∧ combine low b = low

/-- 41_payload.md R54: the extension is exact, the shift loses no set bit, the masked term is zero, and it is zero at every
intermediate width `n`. -/
def Obligations.HighByteTermIsZeroAndNothingIsLost : Prop :=
  ∀ b : Byte,
    (zext16 b).toNat = b.toNat ∧ (zext16 b <<< 8).toNat = b.toNat * 256 ∧ highTerm b = 0x0000#16 ∧
    ∀ n : Nat, (b.setWidth n <<< 8) &&& BitVec.ofNat n 0xFF = 0#n

/-! ## One step -/

/-- A step runs the decoded operation: the sample at the ports is consumed and the operation of the step word runs on what
is left. -/
def Obligations.StepRunsTheDecodedOperation : Prop :=
  ∀ (s : State) (i : Instr), i.wf = true → s.stepWord = encode i →
    step s = exec i { state := s.state, low := s.low, pending := s.pending.tail, outputs := s.outputs }

/-- 42_step_and_stream.md R57: a step is the transition table applied to the control state, `low` and the event of the
sample at the ports; `feed` is that rule's function, row for row. -/
def Obligations.StepFollowsTheTransitionTable : Prop :=
  ∀ (s : State) (p : PortIn) (rest : List PortIn), s.pending = p :: rest →
    step s = .next
      { state := (feed s.state s.low p.event).1.1, low := (feed s.state s.low p.event).1.2, pending := rest,
        outputs := s.outputs ++ [(feed s.state s.low p.event).2] }

/-- The model's choice (log entry 4), after 20_memory.md R34: with no sample to come a step is a `NoByte` step. -/
def Obligations.StepWithNothingPresentedIsNoByte : Prop :=
  ∀ s : State, s.pending = [] →
    step s = .next { state := s.state, low := s.low, pending := [], outputs := s.outputs ++ [none] }

/-- 42_step_and_stream.md R58: every step, and every operation on every state, answers a next state with exactly one more
output. -/
def Obligations.EveryStepAnswersANextState : Prop :=
  (∀ s : State, ∃ t o, step s = .next t ∧ t.outputs = s.outputs ++ [o]) ∧
  ∀ (i : Instr) (s : State), ∃ t o, exec i s = .next t ∧ t.outputs = s.outputs ++ [o]

/-- 42_step_and_stream.md R60: a step emits exactly when a byte arrives in `AwaitingHigh`. -/
def Obligations.OnlyAByteInAwaitingHighEmits : Prop :=
  ∀ s : State, ∃ t o, step s = .next t ∧ t.outputs = s.outputs ++ [o] ∧
    (o.isSome = true ↔ s.state = .awaitingHigh ∧ ∃ b, s.ports.event = .byte b)

/-- 30_encoding.md R44: the operation a byte selects depends on the control state and on nothing else; `0x24` is a sync byte
in `Idle`, a mismatch in `SawSync1`, and data in `AwaitingLow` and `AwaitingHigh`. -/
def Obligations.MeaningOfAByteDependsOnTheControlStateOnly : Prop :=
  (∀ (s u : State) (b : Byte), s.ports.event = .byte b → u.ports.event = .byte b → s.state = u.state →
    decode s.stepWord = decode u.stepWord) ∧
  ∀ s : State, s.ports.event = .byte 0x24#8 →
    (s.state = .idle → decode s.stepWord = .idleSync1) ∧
    (s.state = .sawSync1 → decode s.stepWord = .sync1Resync 0x24#8) ∧
    (s.state = .awaitingLow → decode s.stepWord = .lowCapture 0x24#8) ∧
    (s.state = .awaitingHigh → decode s.stepWord = .highEmit 0x24#8)

/-- 10_state.md R12, R13, R17: `low` changes in no step but one that takes a byte in `AwaitingLow`; that step writes all 16
bits. -/
def Obligations.LowIsWrittenOnlyInAwaitingLow : Prop :=
  ∀ s t : State, step s = .next t →
    (∀ b, s.state = .awaitingLow → s.ports.event = .byte b →
      t.low.extractLsb' 8 8 = 0x00#8 ∧ t.low.extractLsb' 0 8 = b) ∧
    ((s.state ≠ .awaitingLow ∨ ∀ b, s.ports.event ≠ .byte b) → t.low = s.low)

/-- 10_state.md R15, R17: a `NoByte` step writes nothing, a `Reset` step writes `Idle`. -/
def Obligations.ControlStateMovesOnByteAndResetOnly : Prop :=
  ∀ s t : State, step s = .next t →
    (s.ports.event = .noByte → t.state = s.state ∧ t.low = s.low) ∧
    (s.ports.event = .reset → t.state = .idle ∧ t.low = s.low)

/-- 30_encoding.md R38: the sync comparison is an exact 8-bit equality. -/
def Obligations.OnlyTheExactSyncBytesAdvance : Prop :=
  ∀ (s t : State) (b : Byte), s.ports.event = .byte b → step s = .next t →
    (s.state = .idle → (t.state = .sawSync1 ↔ b = 0x24#8) ∧ (b = 0xA4#8 → t.state = .idle)) ∧
    (s.state = .sawSync1 → (t.state = .awaitingLow ↔ b = 0x4D#8) ∧ (b = 0x6D#8 → t.state = .idle))

/-- 60_exceptions.md R74: `rst` wins and the byte is dropped; then `in_valid`; HIGH.EMIT writes `state` and emits in one
step. -/
def Obligations.PortPriorityPicksTheEvent : Prop :=
  ∀ (s : State) (p : PortIn) (rest : List PortIn), s.pending = p :: rest →
    (p.event = if p.rst then .reset else if p.inValid then .byte p.inByte else .noByte) ∧
    (p.rst = true → step s = .next
      { state := .idle, low := s.low, pending := rest, outputs := s.outputs ++ [none] }) ∧
    (p.rst = false → p.inValid = false → step s = .next
      { state := s.state, low := s.low, pending := rest, outputs := s.outputs ++ [none] }) ∧
    (p.rst = false → p.inValid = true → s.state = .awaitingHigh → step s = .next
      { state := .idle, low := s.low, pending := rest, outputs := s.outputs ++ [some s.low] })

/-- 20_memory.md R24: the output ports of a step show its output, and depend on the state registers and the inputs only. -/
def Obligations.OutputPortsShowTheStepsOutput : Prop :=
  (∀ s : State, ∃ t o, step s = .next t ∧ t.outputs = s.outputs ++ [o] ∧
    (∀ v, o = some v → s.outPort = { outValid := true, outReading := v }) ∧
    (o = none → s.outPort = { outValid := false, outReading := 0x0000#16 })) ∧
  ∀ s u : State, s.state = u.state → s.low = u.low → s.ports = u.ports → s.outPort = u.outPort

/-- What reset leaves: the reset state of the model is in `Idle` with nothing presented and nothing emitted, and a `Reset`
step from any state leaves `Idle` with `low` unchanged (10_state.md R18, 70_reset_and_hazards.md R85). What `low` holds in
`State.reset` is the model's choice (log entry 1) and nothing is said of it. -/
def Obligations.ResetLeavesIdleAndLowUnchanged : Prop :=
  State.reset.state = .idle ∧ State.reset.pending = [] ∧ State.reset.outputs = [] ∧
  ∀ (s : State) (p : PortIn) (rest : List PortIn), s.pending = p :: rest → p.rst = true →
    ∃ t, step s = .next t ∧ t.state = .idle ∧ t.low = s.low

/-- The model's choice (log entries 7 and 10): a step word placed for the next step is what that step decodes and runs. -/
def Obligations.PlacedStepWordRunsNext : Prop :=
  ∀ (s : State) (w : StepWord),
    decodeTableWord 16 w.toNat = some (decode w) ∧
    (s.withFetchWord 16 w.toNat).stepWord = w ∧
    step (s.withFetchWord 16 w.toNat) = exec (decode w)
      { state := ParserState.ofCode (w.extractLsb' 8 2), low := s.low, pending := s.pending, outputs := s.outputs }

/-! ## Invariant -/

/-- The invariant holds in the reset state, whatever `low` holds and whatever is to come. -/
def Obligations.ResetStateMeetsInv : Prop :=
  Inv State.reset ∧ ∀ (x : Word) (ins : List PortIn), Inv (State.launch x ins)

/-- Every step keeps the invariant, from every state that meets it. -/
def Obligations.EveryStepKeepsInv : Prop :=
  ∀ s t : State, Inv s → step s = .next t → Inv t

/-- 10_state.md R19, over runs from the reset state: in `AwaitingHigh`, `low` holds the most recent byte; and what `low` held
at power-on reaches neither the control state nor an output. -/
def Obligations.LowHoldsTheMostRecentByteInAwaitingHigh : Prop :=
  (∀ (x : Word) (ins : List PortIn), ((State.launch x []).after ins).state = .awaitingHigh →
    ((State.launch x []).after ins).low.extractLsb' 8 8 = 0x00#8 ∧
    (ins.filterMap fun p => p.event.byte?).getLast? =
      some (((State.launch x []).after ins).low.extractLsb' 0 8)) ∧
  ∀ (x y : Word) (ins : List PortIn),
    ((State.launch x []).after ins).state = ((State.launch y []).after ins).state ∧
    ((State.launch x []).after ins).outputs = ((State.launch y []).after ins).outputs

/-! ## Noninterference -/

/-- 10_state.md R13, R19: outside `AwaitingHigh` the content of `low` has no influence on anything that follows. -/
def Obligations.StaleLowNeverReachesAnOutput : Prop :=
  ∀ (s : State) (x y : Word) (ins : List PortIn), s.state ≠ .awaitingHigh →
    ({ s with low := x }).outputsOf ins = ({ s with low := y }).outputsOf ins ∧
    (({ s with low := x }).after ins).state = (({ s with low := y }).after ins).state

/-- 20_memory.md R32: the output does not feed back. -/
def Obligations.EarlierOutputsDoNotFeedBack : Prop :=
  ∀ (s : State) (os : List (Option Reading)) (ins : List PortIn),
    ({ s with outputs := os }).outputsOf ins = s.outputsOf ins ∧
    (({ s with outputs := os }).after ins).state = (s.after ins).state ∧
    (({ s with outputs := os }).after ins).low = (s.after ins).low

/-- 42_step_and_stream.md R59, 20_memory.md R21: the behaviour on a prefix does not depend on what follows, and a run goes on
from the end state of its prefix. -/
def Obligations.PrefixDoesNotDependOnWhatFollows : Prop :=
  ∀ (s : State) (xs ys zs : List PortIn),
    s.after (xs ++ ys) = (s.after xs).after ys ∧
    s.outputsOf (xs ++ ys) = s.outputsOf xs ++ (s.after xs).outputsOf ys ∧
    (s.outputsOf (xs ++ ys)).take xs.length = (s.outputsOf (xs ++ zs)).take xs.length

/-! ## Runs -/

/-- 42_step_and_stream.md R59: a run of the machine is the fold of the step function of R57 over the events of the samples;
samples beyond the run are left untouched. -/
def Obligations.RunIsTheFoldOfTheStepFunction : Prop :=
  ∀ (s : State) (ins rest : List PortIn),
    Sys2Proof.core.run ins.length (s.presented (ins ++ rest)) = .next
      { state := (feedAll s.state s.low (ins.map PortIn.event)).1.1
        low := (feedAll s.state s.low (ins.map PortIn.event)).1.2
        pending := rest
        outputs := s.outputs ++ (feedAll s.state s.low (ins.map PortIn.event)).2 }

/-- The run over any list of samples, as many steps as there are samples, answers the state that `after` names, with one
output per sample (42_step_and_stream.md R58, R59). The first clause lets a run go on when its samples are exhausted; there it
rests on the model's choice that such steps are `NoByte` steps (log entry 4), while R68 says that a run is over when its event
list is exhausted. -/
def Obligations.RunsNeverStop : Prop :=
  (∀ (n : Nat) (s : State), ∃ t, Sys2Proof.core.run n s = .next t) ∧
  ∀ (s : State) (ins : List PortIn),
    Sys2Proof.core.run ins.length (s.presented ins) = .next (s.after ins) ∧
    (s.outputsOf ins).length = ins.length ∧ (s.after ins).outputs = s.outputs ++ s.outputsOf ins

/-- 42_step_and_stream.md R68: `Idle` is reachable from every state, in at most two bytes, and in one from `SawSync1` and
`AwaitingHigh`. -/
def Obligations.IdleIsReachableWithinTwoBytes : Prop :=
  ∀ s : State, ∃ bs : List Byte, (s.after (samples bs)).state = .idle ∧ bs.length ≤ 2 ∧
    (s.state = .sawSync1 ∨ s.state = .awaitingHigh → bs.length ≤ 1)

/-- 42_step_and_stream.md R69: removing every `NoByte` event changes neither the end state nor the readings, and removes the
corresponding `none` outputs and nothing else. -/
def Obligations.NoByteEventsAreTransparent : Prop :=
  ∀ (s : State) (ins : List PortIn),
    (s.after (ins.filter fun p => p.event ≠ .noByte)).state = (s.after ins).state ∧
    (s.after (ins.filter fun p => p.event ≠ .noByte)).low = (s.after ins).low ∧
    readings (s.outputsOf (ins.filter fun p => p.event ≠ .noByte)) = readings (s.outputsOf ins) ∧
    s.outputsOf (ins.filter fun p => p.event ≠ .noByte) =
      ((ins.zip (s.outputsOf ins)).filter fun e => e.1.event ≠ .noByte).map Prod.snd ∧
    ∀ e ∈ ins.zip (s.outputsOf ins), e.1.event = .noByte → e.2 = none

/-- 42_step_and_stream.md R56, 60_exceptions.md R78: any number of `NoByte` steps changes nothing, whatever is on `in_byte`;
a frame in progress is waited for, and the first byte that comes then completes it. -/
def Obligations.GapsNeverAbandonAFrame : Prop :=
  ∀ (s : State) (junk : List Byte),
    s.after (junk.map PortIn.gap) =
      { state := s.state, low := s.low, pending := [],
        outputs := s.outputs ++ List.replicate junk.length none } ∧
    ∀ b : Byte, s.state = .awaitingHigh → s.after (junk.map PortIn.gap ++ [PortIn.ofByte b]) =
      { state := .idle, low := s.low, pending := [],
        outputs := s.outputs ++ List.replicate junk.length none ++ [some s.low] }

/-- 60_exceptions.md R83: without a `Reset`, `AwaitingLow` and `AwaitingHigh` are left by the payload bytes only. -/
def Obligations.OnlyResetLeavesAFrameEarly : Prop :=
  ∀ (s : State) (ins : List PortIn), (∀ p ∈ ins, p.event ≠ .reset) →
    (s.state = .awaitingLow → (ins.filterMap fun p => p.event.byte?).length = 0 →
      (s.after ins).state = .awaitingLow) ∧
    (s.state = .awaitingLow → (ins.filterMap fun p => p.event.byte?).length = 1 →
      (s.after ins).state = .awaitingHigh) ∧
    (s.state = .awaitingHigh → (ins.filterMap fun p => p.event.byte?).length = 0 →
      (s.after ins).state = .awaitingHigh)

/-- 70_reset_and_hazards.md R86: a `Reset` in any state discards the frame in progress, emits nothing, and the next byte is
looked at in `Idle`. -/
def Obligations.ResetDiscardsAFrameInProgress : Prop :=
  ∀ (s : State) (v : Bool) (junk b : Byte),
    s.after [{ rst := true, inValid := v, inByte := junk }] =
      { state := .idle, low := s.low, pending := [], outputs := s.outputs ++ [none] } ∧
    s.after [{ rst := true, inValid := v, inByte := junk }, PortIn.ofByte b] =
      { state := if b = 0x24#8 then .sawSync1 else .idle, low := s.low, pending := [],
        outputs := s.outputs ++ [none, none] }

/-! ## Laws of streams -/

/-- 42_step_and_stream.md R61, the emission law (counting bytes from 0 here: the rule's `b_i` is `bs[i - 1]`), with the rule's
own account of when the control state is `Idle`. -/
def Obligations.ReadingEmittedExactlyByAConsumedFrame : Prop :=
  ∀ (x : Word) (bs : List Byte),
    (∀ (i : Nat) (v : Reading), i < bs.length →
      (((State.launch x []).after (samples bs)).outputs[i]? = some (some v) ↔
        3 ≤ i ∧ ((State.launch x []).after (samples (bs.take (i - 3)))).state = .idle ∧
        bs[i - 3]? = some 0x24#8 ∧ bs[i - 2]? = some 0x4D#8 ∧
        ∃ l, bs[i - 1]? = some l ∧ v = l.setWidth 16)) ∧
    ∀ j : Nat, j ≤ bs.length →
      (((State.launch x []).after (samples (bs.take j))).state = .idle ↔
        j = 0 ∨
        (∃ b, bs[j - 1]? = some b ∧
          ((((State.launch x []).after (samples (bs.take (j - 1)))).state = .idle ∧ b ≠ 0x24#8) ∨
           (((State.launch x []).after (samples (bs.take (j - 1)))).state = .sawSync1 ∧ b ≠ 0x4D#8) ∨
           ((State.launch x []).after (samples (bs.take (j - 1)))).state = .awaitingHigh)))

/-- 42_step_and_stream.md R62, the idle law. -/
def Obligations.BytesOtherThanSync1LeaveIdleAlone : Prop :=
  ∀ (s : State) (bs : List Byte), s.state = .idle → (∀ b ∈ bs, b ≠ 0x24#8) →
    s.after (samples bs) =
      { state := .idle, low := s.low, pending := [], outputs := s.outputs ++ List.replicate bs.length none }

/-- 42_step_and_stream.md R63, the frame law, for any number of frames back to back: each frame `(L, H)` gives one reading,
`L`, in the step of its fourth byte. -/
def Obligations.BackToBackFramesGiveTheirLowBytes : Prop :=
  ∀ (s : State) (fs : List (Byte × Byte)), s.state = .idle →
    s.after (samples (fs.flatMap fun f => [0x24#8, 0x4D#8, f.1, f.2])) =
      { state := .idle
        low := (fs.getLast?.map fun f => f.1.setWidth 16).getD s.low
        pending := []
        outputs := s.outputs ++ fs.flatMap fun f => [none, none, none, some (f.1.setWidth 16)] }

/-- 42_step_and_stream.md R64, the resync law. -/
def Obligations.ResyncThenFrameGivesTheReading : Prop :=
  ∀ (s : State) (c l h : Byte), s.state = .idle → c ≠ 0x4D#8 →
    s.after (samples [0x24#8, c]) =
      { state := .idle, low := s.low, pending := [], outputs := s.outputs ++ [none, none] } ∧
    s.after (samples [0x24#8, c, 0x24#8, 0x4D#8, l, h]) =
      { state := .idle, low := l.setWidth 16, pending := [],
        outputs := s.outputs ++ [none, none, none, none, none, some (l.setWidth 16)] }

/-- 42_step_and_stream.md R65, the no-frame law, and that its converse does not hold. -/
def Obligations.NoMarkerBeforeTwoBytesNoReading : Prop :=
  (∀ (x : Word) (bs : List Byte),
    (¬ ∃ j, j + 3 < bs.length ∧ bs[j]? = some 0x24#8 ∧ bs[j + 1]? = some 0x4D#8) →
    readings ((State.launch x []).after (samples bs)).outputs = []) ∧
  ∃ bs : List Byte, (∃ j, j + 3 < bs.length ∧ bs[j]? = some 0x24#8 ∧ bs[j + 1]? = some 0x4D#8) ∧
    ∀ x : Word, readings ((State.launch x []).after (samples bs)).outputs = []

/-- 42_step_and_stream.md R66, the spacing law: readings are at least four bytes apart, `n` bytes give at most `n / 4` of
them, the block is in `Idle` after each, and back-to-back frames reach the bound. -/
def Obligations.ReadingsAreFourBytesApart : Prop :=
  (∀ (x : Word) (bs : List Byte),
    (readings ((State.launch x []).after (samples bs)).outputs).length ≤ bs.length / 4 ∧
    (∀ (i j : Nat) (v w : Reading), i < j →
      ((State.launch x []).after (samples bs)).outputs[i]? = some (some v) →
      ((State.launch x []).after (samples bs)).outputs[j]? = some (some w) → i + 4 ≤ j) ∧
    ∀ (i : Nat) (v : Reading), ((State.launch x []).after (samples bs)).outputs[i]? = some (some v) →
      ((State.launch x []).after (samples (bs.take (i + 1)))).state = .idle) ∧
  ∀ (x : Word) (fs : List (Byte × Byte)),
    (readings ((State.launch x []).after
      (samples (fs.flatMap fun f => [0x24#8, 0x4D#8, f.1, f.2]))).outputs).length =
      (fs.flatMap fun f => [0x24#8, 0x4D#8, f.1, f.2]).length / 4

/-- 42_step_and_stream.md R67: the two streams that show that recognition depends on where the block stands. -/
def Obligations.RecognitionDependsOnWhereTheBlockStands : Prop :=
  ∀ x : Word,
    ((State.launch x []).after (samples [0x24#8, 0x24#8, 0x4D#8, 0x02#8, 0x00#8])).outputs =
      [none, none, none, none, none] ∧
    ((State.launch x []).after (samples [0x24#8, 0x4D#8, 0x24#8, 0x4D#8, 0x01#8, 0x02#8])).outputs =
      [none, none, none, some 36#16, none, none]

/-- 70_reset_and_hazards.md R91: a false marker directly before a true frame takes the true frame's marker as payload, and
the true frame's own reading is not emitted, whatever its payload. -/
def Obligations.FalseSyncSwallowsTheRealMarker : Prop :=
  ∀ (s : State) (l h : Byte), s.state = .idle →
    s.outputsOf (samples [0x24#8, 0x4D#8, 0x24#8, 0x4D#8, l, h]) = [none, none, none, some 36#16, none, none] ∧
    (s.after (samples [0x24#8, 0x4D#8, 0x24#8, 0x4D#8, l, h])).low = 0x0024#16

/-- 70_reset_and_hazards.md R92: counting from `Idle`, a true frame directly preceded by an odd number of stray `0x24` bytes
is lost, one preceded by an even number is found. -/
def Obligations.OddStraySync1LosesTheFrame : Prop :=
  ∀ (s : State) (n : Nat) (l h : Byte), s.state = .idle →
    (n % 2 = 1 →
      readings (s.outputsOf (samples (List.replicate n 0x24#8 ++ [0x24#8, 0x4D#8, l, h]))) = []) ∧
    (n % 2 = 0 →
      readings (s.outputsOf (samples (List.replicate n 0x24#8 ++ [0x24#8, 0x4D#8, l, h]))) =
        [l.setWidth 16])

/-- 70_reset_and_hazards.md R95: a distance reads as its value modulo 256, and without the fourth byte nothing is emitted. -/
def Obligations.ReadingIsTheDistanceModulo256 : Prop :=
  ∀ (s : State) (d : BitVec 16), s.state = .idle →
    (∃ v : Reading, v.toNat = d.toNat % 256 ∧
      s.outputsOf (samples [0x24#8, 0x4D#8, d.extractLsb' 0 8, d.extractLsb' 8 8]) =
        [none, none, none, some v]) ∧
    s.outputsOf (samples [0x24#8, 0x4D#8, d.extractLsb' 0 8]) = [none, none, none] ∧
    (s.after (samples [0x24#8, 0x4D#8, d.extractLsb' 0 8])).state = .awaitingHigh

/-- 41_payload.md R55: every reading of a run from the reset state lies in `0..255`, and each of the 256 values occurs. -/
def Obligations.ReadingsAreExactlyTheByteValues : Prop :=
  ∀ v : Reading, v ≤ 0x00FF#16 ↔
    ∃ (x : Word) (ins : List PortIn), some v ∈ ((State.launch x []).after ins).outputs
end

