-- ==== Sys2Proof/Laws/Decode.lean ====
section
/-! SUPPORT. The fields of a packed step word, and what a packed step word decodes to: callers cite these instead of
unfolding the packing. -/

namespace Sys2Proof

@[simp] theorem ParserState.ofCode_code (st : ParserState) : ParserState.ofCode st.code = st := by
  cases st <;> rfl

@[simp] theorem ParserState.code_ofCode (c : BitVec 2) : (ParserState.ofCode c).code = c := by
  revert c; decide

/-- Bit `k` of a packed step word. -/
theorem getLsbD_pack (r v : Bool) (st : ParserState) (b : Byte) (k : Nat) :
    (packStepWord r v st b).getLsbD k =
      if k < 8 then b.getLsbD k
      else if k < 10 then st.code.getLsbD (k - 8)
      else if k = 10 then v
      else if k = 11 then r
      else false := by
  change BitVec.getLsbD (w := 1 + 1 + 2 + 8) (BitVec.ofBool r ++ BitVec.ofBool v ++ st.code ++ b) k = _
  simp only [BitVec.getLsbD_append, BitVec.getLsbD_ofBool]
  by_cases h8 : k < 8
  · simp [h8]
  by_cases h10 : k < 10
  · have : k - 8 < 2 := by omega
    simp [h8, h10, this]
  have h2 : ¬ k - 8 < 2 := by omega
  by_cases e10 : k = 10
  · simp [e10]
  by_cases e11 : k = 11
  · simp [e11]
  have h1 : ¬ k - 8 - 2 < 1 := by omega
  have h0 : ¬ k - 8 - 2 - 1 = 0 := by omega
  simp [h8, h10, h2, e10, e11, h1, h0]

@[simp] theorem StepWord.rst_pack (r v : Bool) (st : ParserState) (b : Byte) :
    StepWord.rst (packStepWord r v st b) = r := by
  rw [StepWord.rst, getLsbD_pack]; simp

@[simp] theorem StepWord.inValid_pack (r v : Bool) (st : ParserState) (b : Byte) :
    StepWord.inValid (packStepWord r v st b) = v := by
  rw [StepWord.inValid, getLsbD_pack]; simp

theorem extractLsb_code_pack (r v : Bool) (st : ParserState) (b : Byte) :
    (packStepWord r v st b).extractLsb' 8 2 = st.code := by
  apply BitVec.eq_of_getLsbD_eq
  intro k hk
  rw [BitVec.getLsbD_extractLsb', getLsbD_pack]
  have h10 : 8 + k < 10 := by omega
  simp [hk, h10]

@[simp] theorem StepWord.control_pack (r v : Bool) (st : ParserState) (b : Byte) :
    StepWord.control (packStepWord r v st b) = st := by
  rw [StepWord.control, extractLsb_code_pack, ParserState.ofCode_code]

@[simp] theorem StepWord.byte_pack (r v : Bool) (st : ParserState) (b : Byte) :
    StepWord.byte (packStepWord r v st b) = b := by
  apply BitVec.eq_of_getLsbD_eq
  intro k hk
  rw [StepWord.byte, BitVec.getLsbD_extractLsb', getLsbD_pack]
  simp [hk]

/-- A step word is what its fields pack to. -/
theorem pack_fields (w : StepWord) :
    packStepWord (StepWord.rst w) (StepWord.inValid w) (StepWord.control w) (StepWord.byte w) = w := by
  apply BitVec.eq_of_getLsbD_eq
  intro k hk
  rw [getLsbD_pack, StepWord.control, ParserState.code_ofCode, BitVec.getLsbD_extractLsb', StepWord.byte,
    BitVec.getLsbD_extractLsb', StepWord.inValid, StepWord.rst]
  by_cases h8 : k < 8
  · simp [h8]
  by_cases h10 : k < 10
  · have h2 : k - 8 < 2 := by omega
    have h : 8 + (k - 8) = k := by omega
    simp [h8, h10, h2, h]
  have h : k = 10 ∨ k = 11 := by omega
  rcases h with rfl | rfl <;> simp

@[simp] theorem decode_pack_reset (v : Bool) (st : ParserState) (b : Byte) :
    decode (packStepWord true v st b) = .reset v st b := by
  simp [decode]

@[simp] theorem decode_pack_noByte (st : ParserState) (b : Byte) :
    decode (packStepWord false false st b) = .noByte st b := by
  simp [decode]

@[simp] theorem decode_pack_byte (st : ParserState) (b : Byte) :
    decode (packStepWord false true st b) = decodeByte st b := by
  simp [decode]

end Sys2Proof
end

