-- ==== Sys2Proof/Laws/State.lean ====
section
/-! SUPPORT. One lemma per field per update of the state. -/

namespace Sys2Proof.Machine

variable (s : State)

@[simp] theorem State.writeState_state (st : ParserState) : (s.writeState st).state = st := rfl
@[simp] theorem State.writeState_low (st : ParserState) : (s.writeState st).low = s.low := rfl
@[simp] theorem State.writeState_pending (st : ParserState) : (s.writeState st).pending = s.pending := rfl
@[simp] theorem State.writeState_outputs (st : ParserState) : (s.writeState st).outputs = s.outputs := rfl

@[simp] theorem State.writeLow_state (v : Word) : (s.writeLow v).state = s.state := rfl
@[simp] theorem State.writeLow_low (v : Word) : (s.writeLow v).low = v := rfl
@[simp] theorem State.writeLow_pending (v : Word) : (s.writeLow v).pending = s.pending := rfl
@[simp] theorem State.writeLow_outputs (v : Word) : (s.writeLow v).outputs = s.outputs := rfl

@[simp] theorem State.emit_state (o : Option Reading) : (s.emit o).state = s.state := rfl
@[simp] theorem State.emit_low (o : Option Reading) : (s.emit o).low = s.low := rfl
@[simp] theorem State.emit_pending (o : Option Reading) : (s.emit o).pending = s.pending := rfl
@[simp] theorem State.emit_outputs (o : Option Reading) : (s.emit o).outputs = s.outputs ++ [o] := rfl

@[simp] theorem State.consume_state : s.consume.state = s.state := rfl
@[simp] theorem State.consume_low : s.consume.low = s.low := rfl
@[simp] theorem State.consume_pending : s.consume.pending = s.pending.tail := rfl
@[simp] theorem State.consume_outputs : s.consume.outputs = s.outputs := rfl

@[simp] theorem State.placeStepWord_state (w : StepWord) : (s.placeStepWord w).state = StepWord.control w := rfl
@[simp] theorem State.placeStepWord_low (w : StepWord) : (s.placeStepWord w).low = s.low := rfl
@[simp] theorem State.placeStepWord_outputs (w : StepWord) : (s.placeStepWord w).outputs = s.outputs := rfl
@[simp] theorem State.placeStepWord_pending (w : StepWord) :
    (s.placeStepWord w).pending =
      { rst := StepWord.rst w, inValid := StepWord.inValid w, inByte := StepWord.byte w } :: s.pending := rfl

@[simp] theorem State.launch_state (x : Word) (ins : List PortIn) : (State.launch x ins).state = .idle := rfl
@[simp] theorem State.launch_low (x : Word) (ins : List PortIn) : (State.launch x ins).low = x := rfl
@[simp] theorem State.launch_pending (x : Word) (ins : List PortIn) : (State.launch x ins).pending = ins := rfl
@[simp] theorem State.launch_outputs (x : Word) (ins : List PortIn) : (State.launch x ins).outputs = [] := rfl

end Sys2Proof.Machine
end

