-- ==== Sys2Proof/Laws/Ops.lean ====
section
/-! SUPPORT. One lemma for each shared operation: what the ports carry, what the step word of a step decodes to, what the
operand forms are bit by bit. -/

namespace Sys2Proof.Machine

theorem State.ports_of_nil {s : State} (h : s.pending = []) : s.ports = PortIn.quiet := by
  simp [State.ports, h]

theorem State.ports_of_cons {s : State} {p : PortIn} {rest : List PortIn} (h : s.pending = p :: rest) :
    s.ports = p := by
  simp [State.ports, h]

/-- The operation of a step, from the control state and the event at the ports. -/
theorem State.decode_stepWord (s : State) :
    decode s.stepWord =
      match s.ports.event with
      | .reset => .reset s.ports.inValid s.state s.ports.inByte
      | .noByte => .noByte s.state s.ports.inByte
      | .byte b => decodeByte s.state b := by
  rw [State.stepWord, PortIn.event]
  cases s.ports.rst <;> cases s.ports.inValid <;> simp

@[simp] theorem State.stepWord_placeStepWord (s : State) (w : StepWord) : (s.placeStepWord w).stepWord = w :=
  pack_fields w

@[simp] theorem PortIn.event_ofByte (b : Byte) : (PortIn.ofByte b).event = .byte b := rfl
@[simp] theorem PortIn.event_gap (junk : Byte) : (PortIn.gap junk).event = .noByte := rfl
@[simp] theorem PortIn.event_quiet : PortIn.quiet.event = .noByte := rfl

@[simp] theorem samples_nil : samples [] = [] := rfl
@[simp] theorem samples_cons (b : Byte) (bs : List Byte) : samples (b :: bs) = PortIn.ofByte b :: samples bs := rfl
@[simp] theorem samples_length (bs : List Byte) : (samples bs).length = bs.length := by simp [samples]

theorem samples_append (xs ys : List Byte) : samples (xs ++ ys) = samples xs ++ samples ys := by
  simp [samples]

/-- The events of a byte stream. -/
theorem samples_events (bs : List Byte) : (samples bs).map PortIn.event = bs.map Event.byte := by
  simp [samples, Function.comp_def]

@[simp] theorem readings_nil : readings [] = [] := rfl
@[simp] theorem readings_none (os : List (Option Reading)) : readings (none :: os) = readings os := rfl
@[simp] theorem readings_some (v : Reading) (os : List (Option Reading)) :
    readings (some v :: os) = v :: readings os := rfl

theorem readings_append (xs ys : List (Option Reading)) : readings (xs ++ ys) = readings xs ++ readings ys := by
  simp [readings]

/-- Bits of the zero extension. -/
theorem getLsbD_zext16 (b : Byte) (k : Nat) : (zext16 b).getLsbD k = (decide (k < 8) && b.getLsbD k) := by
  by_cases h : k < 8
  · have h16 : k < 16 := by omega
    simp [zext16, h, h16]
  · have : b.getLsbD k = false := BitVec.getLsbD_of_ge b k (by omega)
    simp [zext16, BitVec.getLsbD_setWidth, this]

end Sys2Proof.Machine
end

