-- ==== Sys2Proof/Laws/PerInstr.lean ====
section
/-! SUPPORT. Families of statements about operations as syntax, one lemma per constructor. -/

namespace Sys2Proof.Laws

/-- The encoding of an operation carries its row's match bits under its row's mask, and is none of the words its row
excludes (30_encoding.md R41, R46). -/
def EncodeMatchesRow.Statement (i : Instr) : Prop :=
  i.wf = true → ∃ r ∈ opcodeTable, r.mnemonic = i.mnemonic ∧ encode i &&& r.mask = r.matchBits ∧ encode i ∉ r.excludes

theorem EncodeMatchesRow.reset (v : Bool) (st : ParserState) (b : Byte) :
    EncodeMatchesRow.Statement (.reset v st b) := by
  intro _
  refine ⟨opcodeTable[0], by decide, rfl, ?_, List.not_mem_nil⟩
  revert b; cases v <;> cases st <;> decide

theorem EncodeMatchesRow.noByte (st : ParserState) (b : Byte) :
    EncodeMatchesRow.Statement (.noByte st b) := by
  intro _
  refine ⟨opcodeTable[1], by decide, rfl, ?_, List.not_mem_nil⟩
  revert b; cases st <;> decide

theorem EncodeMatchesRow.idleSync1 : EncodeMatchesRow.Statement .idleSync1 := by
  intro _
  exact ⟨opcodeTable[2], by decide, rfl, by decide, List.not_mem_nil⟩

theorem EncodeMatchesRow.idleSkip (b : Byte) : EncodeMatchesRow.Statement (.idleSkip b) := by
  intro h
  refine ⟨opcodeTable[3], by decide, rfl, ?_, ?_⟩ <;> revert b <;> decide

theorem EncodeMatchesRow.sync1Sync2 : EncodeMatchesRow.Statement .sync1Sync2 := by
  intro _
  exact ⟨opcodeTable[4], by decide, rfl, by decide, List.not_mem_nil⟩

theorem EncodeMatchesRow.sync1Resync (b : Byte) : EncodeMatchesRow.Statement (.sync1Resync b) := by
  intro h
  refine ⟨opcodeTable[5], by decide, rfl, ?_, ?_⟩ <;> revert b <;> decide

theorem EncodeMatchesRow.lowCapture (b : Byte) : EncodeMatchesRow.Statement (.lowCapture b) := by
  intro _
  refine ⟨opcodeTable[6], by decide, rfl, ?_, List.not_mem_nil⟩
  revert b; decide

theorem EncodeMatchesRow.highEmit (b : Byte) : EncodeMatchesRow.Statement (.highEmit b) := by
  intro _
  refine ⟨opcodeTable[7], by decide, rfl, ?_, List.not_mem_nil⟩
  revert b; decide

end Sys2Proof.Laws
end

