-- ==== Sys2Proof/Laws/Step.lean ====
section
/-! SUPPORT. What a step can do, said once: later proofs cite these and do not unfold the dispatcher. -/

namespace Sys2Proof.Machine

/-- `exec` keeps the samples to come and appends one output; the state it answers is otherwise one of these. -/
theorem exec_cases {i : Instr} {s t : State} (h : exec i s = .next t) :
    (t = (s.writeState .idle).emit none) ∨
    (t = s.emit none) ∨
    (t = (s.writeState .sawSync1).emit none) ∨
    (t = (s.writeState .awaitingLow).emit none) ∨
    (∃ b, i = .lowCapture b ∧ t = ((s.writeLow (zext16 b)).writeState .awaitingHigh).emit none) ∨
    (∃ b, i = .highEmit b ∧ t = (s.writeState .idle).emit (some (combine s.low b))) := by
  cases i <;> simp only [exec, execReset, execNoByte, execIdleSync1, execIdleSkip, execSync1Sync2,
    execSync1Resync, execLowCapture, execHighEmit, Host.Outcome.next.injEq] at h <;> subst h
  case reset => exact .inl rfl
  case noByte => exact .inr (.inl rfl)
  case idleSync1 => exact .inr (.inr (.inl rfl))
  case idleSkip => exact .inl rfl
  case sync1Sync2 => exact .inr (.inr (.inr (.inl rfl)))
  case sync1Resync => exact .inl rfl
  case lowCapture b => exact .inr (.inr (.inr (.inr (.inl ⟨b, rfl, rfl⟩))))
  case highEmit b => exact .inr (.inr (.inr (.inr (.inr ⟨b, rfl, rfl⟩))))

/-- A step that answers `t` has consumed one sample. -/
theorem step_pending {s t : State} (h : step s = .next t) : t.pending = s.pending.tail := by
  rcases exec_cases h with rfl | rfl | rfl | rfl | ⟨_, _, rfl⟩ | ⟨_, _, rfl⟩ <;> simp

/-- A step that answers `t` has appended one output. -/
theorem step_outputs {s t : State} (h : step s = .next t) : ∃ o, t.outputs = s.outputs ++ [o] := by
  rcases exec_cases h with rfl | rfl | rfl | rfl | ⟨_, _, rfl⟩ | ⟨_, _, rfl⟩ <;> simp

/-- A number below 4096 placed for fetching is the next step word. -/
theorem State.stepWord_withFetchWord (s : State) {nbits w : Nat} (h : w % 2 ^ nbits < 2 ^ 12) :
    (s.withFetchWord nbits w).stepWord = BitVec.ofNat 12 (w % 2 ^ nbits) := by
  rw [State.withFetchWord, if_pos h, State.stepWord_placeStepWord]

end Sys2Proof.Machine
end

