-- ==== Sys2Proof/Laws/Run.lean ====
section
/-! SUPPORT. Small lemmas about runs: presenting samples, and the two equations of `Host.Core.run`. -/

namespace Sys2Proof.Machine

variable (s : State) (ins : List PortIn)

@[simp] theorem State.presented_state : (s.presented ins).state = s.state := rfl
@[simp] theorem State.presented_low : (s.presented ins).low = s.low := rfl
@[simp] theorem State.presented_pending : (s.presented ins).pending = ins := rfl
@[simp] theorem State.presented_outputs : (s.presented ins).outputs = s.outputs := rfl

theorem run_zero (s : State) : Sys2Proof.core.run 0 s = .next s := rfl

/-- One step of a run, for any machine behind the host's interface. -/
theorem core_run_succ (M : Host.Core) (n : Nat) {s t : M.State} (h : M.step s = .next t) :
    M.run (n + 1) s = M.run n t := by
  simp [Host.Core.run, h]

theorem run_succ (n : Nat) {s t : State} (h : step s = .next t) :
    Sys2Proof.core.run (n + 1) s = Sys2Proof.core.run n t :=
  core_run_succ Sys2Proof.core n h

theorem after_of_run {s t : State} {ins : List PortIn}
    (h : Sys2Proof.core.run ins.length (s.presented ins) = .next t) : s.after ins = t := by
  rw [State.after, h]

end Sys2Proof.Machine
end

