-- ==== Sys2Proof/Tests/Slice0.lean ====
section
/-! SUPPORT. The model's own tests. Expected values are the vectors and tables of spec/95_test_vectors.md and
spec/30_encoding.md, never the model's own answers. Then one witness for each obligation with hypotheses. -/

namespace Sys2Proof.Tests

open Sys2Proof Sys2Proof.Machine

/-! ## Helpers -/

/-- A state with the given registers and one sample at the ports. -/
def one (st : ParserState) (low : Word) (p : PortIn) : State :=
  { state := st, low := low, pending := [p], outputs := [] }

/-- What a step leaves, as `(state, low)` and the outputs. -/
def seen (s : State) : Option ((ParserState × Word) × List (Option Reading)) :=
  match step s with
  | .next t => some ((t.state, t.low), t.outputs)
  | .fault _ => none
  | .refused _ => none

/-- A `Reset` sample. -/
def rst (v : Bool) (b : Byte) : PortIn := { rst := true, inValid := v, inByte := b }

/-! ## Well-formedness: each check refuses an ill-formed term (30_encoding.md R41 rows 4 and 6) -/

theorem test_wf_refuses_idleSkip_of_sync1 : (Instr.idleSkip 0x24#8).wf = false := by decide
theorem test_wf_refuses_sync1Resync_of_sync2 : (Instr.sync1Resync 0x4D#8).wf = false := by decide
theorem test_wf_accepts_the_other_sync_byte :
    (Instr.idleSkip 0x4D#8).wf = true ∧ (Instr.sync1Resync 0x24#8).wf = true := by decide

/-! ## Decoding: words written out bit by bit from the patterns of 30_encoding.md R41 -/

theorem test_decode_reset : decode 0b110000100100#12 = .reset true .idle 0x24#8 := by decide
theorem test_decode_noByte : decode 0b001100100100#12 = .noByte .awaitingHigh 0x24#8 := by decide
theorem test_decode_idleSync1 : decode 0b010000100100#12 = .idleSync1 := by decide
theorem test_decode_idleSkip : decode 0b010010100100#12 = .idleSkip 0xA4#8 := by decide
theorem test_decode_sync1Sync2 : decode 0b010101001101#12 = .sync1Sync2 := by decide
theorem test_decode_sync1Resync : decode 0b010101101101#12 = .sync1Resync 0x6D#8 := by decide
theorem test_decode_lowCapture : decode 0b011001001101#12 = .lowCapture 0x4D#8 := by decide
theorem test_decode_highEmit : decode 0b011100100100#12 = .highEmit 0x24#8 := by decide

/-- 95_test_vectors.md P4: step words `0xB00`, `0x664`, `0x780`, as table words of two bytes; a set bit above bit 11 is no
step word. -/
theorem test_decodeTableWord :
    decodeTableWord 16 0xB00 = some (.reset false .awaitingHigh 0x00#8) ∧
    decodeTableWord 16 0x664 = some (.lowCapture 0x64#8) ∧
    decodeTableWord 16 0x780 = some (.highEmit 0x80#8) ∧
    decodeTableWord 16 0x1780 = none := by decide

theorem test_decodeBytes_rejects_by_name :
    decodeBytes [0x24#8] = .error .tooFewBytes ∧
    decodeBytes [0x24#8, 0x14#8] = .error .bitsAboveStepWord := by decide

/-! ## One step of each operation (95_test_vectors.md sections 2.1 to 2.3) -/

theorem test_idle_0x24 : seen (one .idle 0xBEEF#16 (.ofByte 0x24#8)) = some ((.sawSync1, 0xBEEF#16), [none]) := by
  decide
theorem test_idle_0xA4 : seen (one .idle 0xBEEF#16 (.ofByte 0xA4#8)) = some ((.idle, 0xBEEF#16), [none]) := by decide
theorem test_idle_0x4D : seen (one .idle 0xBEEF#16 (.ofByte 0x4D#8)) = some ((.idle, 0xBEEF#16), [none]) := by decide
theorem test_sawSync1_0x4D :
    seen (one .sawSync1 0xBEEF#16 (.ofByte 0x4D#8)) = some ((.awaitingLow, 0xBEEF#16), [none]) := by decide
theorem test_sawSync1_0x24 :
    seen (one .sawSync1 0xBEEF#16 (.ofByte 0x24#8)) = some ((.idle, 0xBEEF#16), [none]) := by decide
theorem test_awaitingLow_0x80 :
    seen (one .awaitingLow 0xFFFF#16 (.ofByte 0x80#8)) = some ((.awaitingHigh, 0x0080#16), [none]) := by decide
theorem test_awaitingLow_0x24 :
    seen (one .awaitingLow 0x00AB#16 (.ofByte 0x24#8)) = some ((.awaitingHigh, 0x0024#16), [none]) := by decide
theorem test_awaitingHigh_0xFF :
    seen (one .awaitingHigh 0x0005#16 (.ofByte 0xFF#8)) = some ((.idle, 0x0005#16), [some 5#16]) := by decide
theorem test_awaitingHigh_0x24 :
    seen (one .awaitingHigh 0x0010#16 (.ofByte 0x24#8)) = some ((.idle, 0x0010#16), [some 16#16]) := by decide
theorem test_gap_with_0x24 :
    seen (one .awaitingHigh 0x0007#16 (.gap 0x24#8)) = some ((.awaitingHigh, 0x0007#16), [none]) := by decide
theorem test_reset_drops_the_byte :
    seen (one .awaitingHigh 0x0007#16 (rst true 0x00#8)) = some ((.idle, 0x0007#16), [none]) := by decide
theorem test_reset_drops_sync1 : seen (one .idle 0xBEEF#16 (rst true 0x24#8)) = some ((.idle, 0xBEEF#16), [none]) := by
  decide

/-- 20_memory.md R24: the ports of the emitting step, and of a step that emits nothing. -/
theorem test_outPort :
    (one .awaitingHigh 0x00FF#16 (.ofByte 0x01#8)).outPort = { outValid := true, outReading := 255#16 } ∧
    (one .awaitingLow 0x00FF#16 (.ofByte 0x01#8)).outPort = { outValid := false, outReading := 0#16 } := by decide

/-- 95_test_vectors.md section 2.1: the step word of a `0x24` in `SawSync1` is `0x524`. -/
theorem test_stepWord : (one .sawSync1 0x0000#16 (.ofByte 0x24#8)).stepWord = 0x524#12 := by decide

/-- A placed step word is the first thing that runs after reset. -/
theorem test_withFetchWord : seen (State.reset.withFetchWord 16 0x62C) = some ((.awaitingHigh, 0x002C#16), [none]) := by
  decide

/-! ## Witnesses: concrete states and operands that meet an obligation's hypotheses, clause by clause -/

theorem witness_StepWordIsPortsAndControlState :
    (∃ (s : State) (p : PortIn) (rest : List PortIn), s.pending = p :: rest ∧ s.state = .awaitingHigh) ∧
    (∃ w w' : StepWord, w.getLsbD 11 = true ∧ w'.getLsbD 11 = true ∧ w ≠ w') ∧
    (∃ w w' : StepWord, w.getLsbD 11 = false ∧ w.getLsbD 10 = false ∧ w'.getLsbD 11 = false ∧
      w'.getLsbD 10 = false ∧ w ≠ w') ∧
    ∃ w : StepWord, w.getLsbD 11 = false ∧ w.getLsbD 10 = true :=
  ⟨⟨one .awaitingHigh 5#16 (.ofByte 1#8), _, _, rfl, rfl⟩, ⟨0x800#12, 0xFFF#12, by decide⟩,
    ⟨0x000#12, 0x3FF#12, by decide⟩, ⟨0x400#12, by decide⟩⟩

theorem witness_PriorityReadingEqualsExclusionReading :
    ∃ w r, firstMatchingRow w = some r ∧ r ∈ opcodeTable ∧ r.selects w = true ∧ r.excludes ≠ [] :=
  ⟨0x425#12, ⟨"IDLE.SKIP", 0x400#12, 0xF00#12, [0x424#12], 4, 255⟩, by decide⟩

theorem witness_DecodeOfEncodeIsTheOperation :
    (Instr.idleSkip 0x25#8).wf = true ∧ (Instr.sync1Resync 0x4C#8).wf = true ∧
    (Instr.reset true .awaitingHigh 0xFF#8).wf = true ∧ (Instr.highEmit 0x00#8).wf = true := by decide

theorem witness_Sync1Sync2AcceptsTheSecondSyncByte :
    ∃ (s : State) (ins : List PortIn), s.state = .awaitingLow ∧ (∀ p ∈ ins, p.event ≠ .reset) ∧
      (ins.filterMap fun p => p.event.byte?).length ≤ 1 ∧ ins.length = 2 :=
  ⟨one .awaitingLow 1#16 (.gap 0#8), [.gap 0x24#8, .ofByte 0x24#8], by decide⟩

theorem witness_LowCaptureStoresTheByteZeroExtended : ∃ i : Instr, ∀ b, i ≠ .lowCapture b := ⟨.highEmit 0x05#8, nofun⟩

theorem witness_HighEmitEmitsLow : ∃ i : Instr, ∀ b, i ≠ .highEmit b := ⟨.lowCapture 0x05#8, nofun⟩

theorem witness_MeaningOfAByteDependsOnTheControlStateOnly :
    (∃ (s u : State) (b : Byte), s.ports.event = .byte b ∧ u.ports.event = .byte b ∧ s.state = u.state ∧ s.low ≠ u.low) ∧
    ∀ st : ParserState, ∃ s : State, s.ports.event = .byte 0x24#8 ∧ s.state = st :=
  ⟨⟨one .idle 1#16 (.ofByte 0x24#8), one .idle 2#16 (.ofByte 0x24#8), 0x24#8, by decide⟩,
    fun st => ⟨one st 1#16 (.ofByte 0x24#8), rfl, rfl⟩⟩

theorem witness_StepRunsTheDecodedOperation :
    ∃ (s : State) (i : Instr), i.wf = true ∧ s.stepWord = encode i :=
  ⟨one .idle 0x0001#16 (.ofByte 0x25#8), .idleSkip 0x25#8, by decide⟩

theorem witness_StepFollowsTheTransitionTable :
    ∃ (s : State) (p : PortIn) (rest : List PortIn), s.pending = p :: rest :=
  ⟨one .awaitingLow 0x0001#16 (.ofByte 0xFF#8), _, _, rfl⟩

theorem witness_StepWithNothingPresentedIsNoByte : ∃ s : State, s.pending = [] := ⟨State.reset, rfl⟩

theorem witness_LowIsWrittenOnlyInAwaitingLow :
    (∃ s t b, step s = .next t ∧ s.state = .awaitingLow ∧ s.ports.event = .byte b) ∧
    (∃ s t, step s = .next t ∧ s.state ≠ .awaitingLow) ∧
    ∃ s t, step s = .next t ∧ s.state = .awaitingLow ∧ ∀ b, s.ports.event ≠ .byte b :=
  ⟨⟨one .awaitingLow 0xFFFF#16 (.ofByte 0xFF#8), _, 0xFF#8, rfl, rfl, rfl⟩,
    ⟨one .awaitingHigh 0xFFFF#16 (.ofByte 0xFF#8), _, rfl, nofun⟩,
    ⟨one .awaitingLow 0xFFFF#16 (.gap 0xFF#8), _, rfl, rfl, nofun⟩⟩

theorem witness_ControlStateMovesOnByteAndResetOnly :
    (∃ s t, step s = .next t ∧ s.ports.event = .noByte) ∧ ∃ s t, step s = .next t ∧ s.ports.event = .reset :=
  ⟨⟨one .sawSync1 0x0001#16 (.gap 0x4D#8), _, rfl, rfl⟩, ⟨one .sawSync1 0x0001#16 (rst true 0x4D#8), _, rfl, rfl⟩⟩

theorem witness_OnlyTheExactSyncBytesAdvance :
    (∃ s t, s.ports.event = .byte 0xA4#8 ∧ step s = .next t ∧ s.state = .idle) ∧
    (∃ s t, s.ports.event = .byte 0x24#8 ∧ step s = .next t ∧ s.state = .idle) ∧
    (∃ s t, s.ports.event = .byte 0x6D#8 ∧ step s = .next t ∧ s.state = .sawSync1) ∧
    ∃ s t, s.ports.event = .byte 0x4D#8 ∧ step s = .next t ∧ s.state = .sawSync1 :=
  ⟨⟨one .idle 1#16 (.ofByte 0xA4#8), _, rfl, rfl, rfl⟩, ⟨one .idle 1#16 (.ofByte 0x24#8), _, rfl, rfl, rfl⟩,
    ⟨one .sawSync1 1#16 (.ofByte 0x6D#8), _, rfl, rfl, rfl⟩, ⟨one .sawSync1 1#16 (.ofByte 0x4D#8), _, rfl, rfl, rfl⟩⟩

theorem witness_PortPriorityPicksTheEvent :
    (∃ (s : State) (p : PortIn) (rest : List PortIn), s.pending = p :: rest ∧ p.rst = true ∧ p.inValid = true) ∧
    (∃ (s : State) (p : PortIn) (rest : List PortIn), s.pending = p :: rest ∧ p.rst = false ∧ p.inValid = false) ∧
    ∃ (s : State) (p : PortIn) (rest : List PortIn),
      s.pending = p :: rest ∧ p.rst = false ∧ p.inValid = true ∧ s.state = .awaitingHigh :=
  ⟨⟨one .idle 1#16 (rst true 0x24#8), _, _, rfl, rfl, rfl⟩, ⟨one .idle 1#16 (.gap 0x24#8), _, _, rfl, rfl, rfl⟩,
    ⟨one .awaitingHigh 1#16 (.ofByte 0x24#8), _, _, rfl, rfl, rfl, rfl⟩⟩

theorem witness_OutputPortsShowTheStepsOutput :
    ∃ s u : State, s.state = u.state ∧ s.low = u.low ∧ s.ports = u.ports ∧ s ≠ u :=
  ⟨one .awaitingHigh 1#16 (.ofByte 0#8), { one .awaitingHigh 1#16 (.ofByte 0#8) with outputs := [none] }, by decide⟩

theorem witness_ResetLeavesIdleAndLowUnchanged :
    ∃ (s : State) (p : PortIn) (rest : List PortIn), s.pending = p :: rest ∧ p.rst = true :=
  ⟨one .awaitingHigh 7#16 (rst true 0#8), _, _, rfl, rfl⟩

theorem witness_EveryStepKeepsInv : ∃ s t : State, Inv s ∧ s.state = .awaitingHigh ∧ step s = .next t :=
  ⟨one .awaitingHigh 0x00FF#16 (.ofByte 0xFF#8), _, ⟨fun _ => by decide, nofun⟩, rfl, rfl⟩

theorem witness_LowHoldsTheMostRecentByteInAwaitingHigh :
    ∃ (x : Word) (ins : List PortIn), ((State.launch x []).after ins).state = .awaitingHigh :=
  ⟨0xFFFF#16, samples [0x24#8, 0x4D#8, 0xFF#8], by decide⟩

theorem witness_StaleLowNeverReachesAnOutput : ∃ s : State, s.state ≠ .awaitingHigh := ⟨State.reset, nofun⟩

theorem witness_NoByteEventsAreTransparent :
    ∃ (s : State) (ins : List PortIn), ∃ e ∈ ins.zip (s.outputsOf ins), e.1.event = .noByte :=
  ⟨State.reset, [.gap 0x24#8], (.gap 0x24#8, none), by decide⟩

theorem witness_GapsNeverAbandonAFrame : ∃ s : State, s.state = .awaitingHigh := ⟨one .awaitingHigh 7#16 (.gap 0#8), rfl⟩

theorem witness_OnlyResetLeavesAFrameEarly :
    (∃ (s : State) (ins : List PortIn), (∀ p ∈ ins, p.event ≠ .reset) ∧ s.state = .awaitingLow ∧
      (ins.filterMap fun p => p.event.byte?).length = 0 ∧ ins ≠ []) ∧
    (∃ (s : State) (ins : List PortIn), (∀ p ∈ ins, p.event ≠ .reset) ∧ s.state = .awaitingLow ∧
      (ins.filterMap fun p => p.event.byte?).length = 1) ∧
    ∃ (s : State) (ins : List PortIn), (∀ p ∈ ins, p.event ≠ .reset) ∧ s.state = .awaitingHigh ∧
      (ins.filterMap fun p => p.event.byte?).length = 0 ∧ ins ≠ [] :=
  ⟨⟨one .awaitingLow 1#16 (.gap 0#8), [.gap 0x24#8], by decide⟩,
    ⟨one .awaitingLow 1#16 (.gap 0#8), [.gap 0x24#8, .ofByte 0x24#8], by decide⟩,
    ⟨one .awaitingHigh 1#16 (.gap 0#8), [.gap 0x24#8], by decide⟩⟩

theorem witness_ReadingEmittedExactlyByAConsumedFrame :
    ∃ (x : Word) (bs : List Byte) (i : Nat) (v : Reading), i < bs.length ∧
      ((State.launch x []).after (samples bs)).outputs[i]? = some (some v) :=
  ⟨7#16, [0x24#8, 0x4D#8, 0x05#8, 0xFF#8], 3, 5#16, by decide⟩

theorem witness_BytesOtherThanSync1LeaveIdleAlone :
    ∃ (s : State) (bs : List Byte), s.state = .idle ∧ (∀ b ∈ bs, b ≠ 0x24#8) ∧ bs.length = 2 :=
  ⟨State.reset, [0x23#8, 0x25#8], by decide⟩

theorem witness_BackToBackFramesGiveTheirLowBytes : ∃ s : State, s.state = .idle ∧ s.low ≠ 0x0000#16 :=
  ⟨State.launch 0xFFFF#16 [], by decide⟩

theorem witness_ResyncThenFrameGivesTheReading : ∃ (s : State) (c : Byte), s.state = .idle ∧ c ≠ 0x4D#8 ∧ c = 0x24#8 :=
  ⟨State.reset, 0x24#8, by decide⟩

/-- The boundary: a marker with one byte behind it, too late to be a frame. -/
theorem witness_NoMarkerBeforeTwoBytesNoReading :
    ∃ bs : List Byte, bs.length = 3 ∧
      ¬ ∃ j, j + 3 < bs.length ∧ bs[j]? = some 0x24#8 ∧ bs[j + 1]? = some 0x4D#8 := by
  refine ⟨[0x24#8, 0x4D#8, 0x05#8], rfl, ?_⟩
  rintro ⟨j, hj, -⟩
  simp at hj

theorem witness_ReadingsAreFourBytesApart :
    ∃ (x : Word) (bs : List Byte) (i j : Nat) (v w : Reading), i < j ∧
      ((State.launch x []).after (samples bs)).outputs[i]? = some (some v) ∧
      ((State.launch x []).after (samples bs)).outputs[j]? = some (some w) :=
  ⟨7#16, [0x24#8, 0x4D#8, 0x24#8, 0x4D#8, 0x24#8, 0x4D#8, 0xFF#8, 0x01#8], 3, 7, 36#16, 255#16, by decide⟩

theorem witness_FalseSyncSwallowsTheRealMarker : ∃ s : State, s.state = .idle := ⟨State.reset, rfl⟩

theorem witness_OddStraySync1LosesTheFrame :
    ∃ (s : State) (n m : Nat), s.state = .idle ∧ n % 2 = 1 ∧ m % 2 = 0 := ⟨State.reset, 1, 0, by decide⟩

theorem witness_ReadingIsTheDistanceModulo256 : ∃ (s : State) (d : BitVec 16), s.state = .idle ∧ d.toNat = 300 :=
  ⟨State.reset, 300#16, by decide⟩

end Sys2Proof.Tests
end

/-! ## The decoder reads back what the encoder writes -/

namespace Sys2Proof

theorem encode_reset (v : Bool) (st : ParserState) (b : Byte) :
    encode (.reset v st b) = packStepWord true v st b := rfl

theorem encode_noByte (st : ParserState) (b : Byte) :
    encode (.noByte st b) = packStepWord false false st b := rfl

theorem decodeByte_idle_of_ne {b : Byte} (h : b ≠ Config.sync1) : decodeByte .idle b = .idleSkip b :=
  if_neg h

theorem decodeByte_sawSync1_of_ne {b : Byte} (h : b ≠ Config.sync2) : decodeByte .sawSync1 b = .sync1Resync b :=
  if_neg h

/-- The decode map's grid of byte operations (30_encoding.md R41) puts each operation at its own control state and byte. -/
theorem encode_decodeByte (st : ParserState) (b : Byte) :
    encode (decodeByte st b) = packStepWord false true st b := by
  cases st with
  | idle =>
    by_cases hb : b = Config.sync1
    · subst hb; rfl
    · rw [decodeByte_idle_of_ne hb]; rfl
  | sawSync1 =>
    by_cases hb : b = Config.sync2
    · subst hb; rfl
    · rw [decodeByte_sawSync1_of_ne hb]; rfl
  | awaitingLow => rfl
  | awaitingHigh => rfl

theorem decode_encode_decodeByte (st : ParserState) (b : Byte) :
    decode (encode (decodeByte st b)) = decodeByte st b := by
  rw [encode_decodeByte, decode_pack_byte]

/-- Well-formedness is used by the two "other" rows only: with the excluded byte they are not in the grid. -/
theorem decode_encode {i : Instr} (h : i.wf = true) : decode (encode i) = i := by
  cases i with
  | reset v st b => rw [encode_reset, decode_pack_reset]
  | noByte st b => rw [encode_noByte, decode_pack_noByte]
  | idleSync1 => exact decode_encode_decodeByte .idle Config.sync1
  | idleSkip b =>
    have hb : b ≠ Config.sync1 := bne_iff_ne.mp h
    rw [← decodeByte_idle_of_ne hb, decode_encode_decodeByte]
  | sync1Sync2 => exact decode_encode_decodeByte .sawSync1 Config.sync2
  | sync1Resync b =>
    have hb : b ≠ Config.sync2 := bne_iff_ne.mp h
    rw [← decodeByte_sawSync1_of_ne hb, decode_encode_decodeByte]
  | lowCapture b => exact decode_encode_decodeByte .awaitingLow b
  | highEmit b => exact decode_encode_decodeByte .awaitingHigh b

end Sys2Proof

/-! ## A step and the operation it runs -/

namespace Sys2Proof.Machine

/-- Settles O17: the decoder gives back the operation whose encoding the step word is, and consuming the sample changes
`pending` alone. -/
theorem stepRunsTheDecodedOperation : Obligations.StepRunsTheDecodedOperation := by
  intro s i hwf hword
  have hdecode : decode s.stepWord = i := by rw [hword, decode_encode hwf]
  rw [step, hdecode, State.consume]

end Sys2Proof.Machine

/-! ## The combination rule on a byte in `low` -/

namespace Sys2Proof.Machine

/-- 41_payload.md R54: the shift moves all eight bits of the byte above the mask. -/
theorem highTerm_eq_zero (b : Byte) : highTerm b = 0#16 := by
  revert b; decide

/-- 41_payload.md R53: the high byte contributes nothing. -/
@[simp] theorem combine_eq_low (low : Word) (b : Byte) : combine low b = low := by
  rw [combine, highTerm_eq_zero, BitVec.or_zero]

@[simp] theorem upperByte_zext16 (b : Byte) : (zext16 b).extractLsb' 8 8 = 0x00#8 := by
  revert b; decide

@[simp] theorem lowerByte_zext16 (b : Byte) : (zext16 b).extractLsb' 0 8 = b := by
  revert b; decide

theorem le_0x00FF_of_upperByte_eq_zero {v : Word} (h : v.extractLsb' 8 8 = 0x00#8) : v ≤ 0x00FF#16 := by
  have hdiv : v.toNat / 256 % 256 = 0 := by
    simpa [BitVec.extractLsb'_toNat, Nat.shiftRight_eq_div_pow] using congrArg BitVec.toNat h
  rw [BitVec.le_def, BitVec.toNat_ofNat]
  omega

end Sys2Proof.Machine

/-! ## The transition table: what one event does (42_step_and_stream.md R57) -/

namespace Sys2Proof.Machine

@[simp] theorem feed_reset (st : ParserState) (low : Word) : feed st low .reset = ((.idle, low), none) := rfl

@[simp] theorem feed_noByte (st : ParserState) (low : Word) : feed st low .noByte = ((st, low), none) := rfl

@[simp] theorem feed_awaitingLow_byte (low : Word) (b : Byte) :
    feed .awaitingLow low (.byte b) = ((.awaitingHigh, zext16 b), none) := rfl

@[simp] theorem feed_awaitingHigh_byte (low : Word) (b : Byte) :
    feed .awaitingHigh low (.byte b) = ((.idle, low), some low) :=
  congrArg (fun v => ((ParserState.idle, low), some v)) (combine_eq_low low b)

/-- The four kinds of rows of the table: nothing happens; the block goes to a control state other than `AwaitingHigh`,
with `low` kept and nothing emitted; a byte is captured; `low` is emitted. Which row applies does not depend on `low`. -/
theorem feed_cases (st : ParserState) (ev : Event) :
    (ev = .noByte) ∨
    (∃ st', st' ≠ .awaitingHigh ∧ ∀ low, feed st low ev = ((st', low), none)) ∨
    (∃ b, st = .awaitingLow ∧ ev = .byte b) ∨
    (∃ b, st = .awaitingHigh ∧ ev = .byte b) := by
  cases ev with
  | reset => exact .inr (.inl ⟨.idle, by decide, fun _ => rfl⟩)
  | noByte => exact .inl rfl
  | byte b =>
    cases st with
    | idle =>
      by_cases hb : b = 0x24#8
      · exact .inr (.inl ⟨.sawSync1, by decide, fun _ => if_pos hb⟩)
      · exact .inr (.inl ⟨.idle, by decide, fun _ => if_neg hb⟩)
    | sawSync1 =>
      by_cases hb : b = 0x4D#8
      · exact .inr (.inl ⟨.awaitingLow, by decide, fun _ => if_pos hb⟩)
      · exact .inr (.inl ⟨.idle, by decide, fun _ => if_neg hb⟩)
    | awaitingLow => exact .inr (.inr (.inl ⟨b, rfl, rfl⟩))
    | awaitingHigh => exact .inr (.inr (.inr ⟨b, rfl, rfl⟩))

@[simp] theorem feedAll_nil (st : ParserState) (low : Word) : feedAll st low [] = ((st, low), []) := rfl

@[simp] theorem feedAll_cons (st : ParserState) (low : Word) (ev : Event) (evs : List Event) :
    feedAll st low (ev :: evs) =
      ((feedAll (feed st low ev).1.1 (feed st low ev).1.2 evs).1,
        (feed st low ev).2 :: (feedAll (feed st low ev).1.1 (feed st low ev).1.2 evs).2) := rfl

end Sys2Proof.Machine

/-! ## The machine follows the table: one step, and a run -/

namespace Sys2Proof.Machine

/-- The state after one event: the table's row, one sample gone, one output more. -/
def State.fed (s : State) (ev : Event) : State :=
  { state := (feed s.state s.low ev).1.1, low := (feed s.state s.low ev).1.2, pending := s.pending.tail,
    outputs := s.outputs ++ [(feed s.state s.low ev).2] }

@[simp] theorem State.fed_state (s : State) (ev : Event) : (s.fed ev).state = (feed s.state s.low ev).1.1 := rfl
@[simp] theorem State.fed_low (s : State) (ev : Event) : (s.fed ev).low = (feed s.state s.low ev).1.2 := rfl
@[simp] theorem State.fed_outputs (s : State) (ev : Event) :
    (s.fed ev).outputs = s.outputs ++ [(feed s.state s.low ev).2] := rfl

/-- The operation that a byte selects does what the table says of that byte. -/
theorem exec_decodeByte_consume (s : State) (b : Byte) :
    exec (decodeByte s.state b) s.consume = .next (s.fed (.byte b)) := by
  obtain ⟨st, low, pending, outputs⟩ := s
  cases st with
  | idle =>
    by_cases hb : b = Config.sync1
    · subst hb; rfl
    · have hfeed : feed .idle low (.byte b) = ((.idle, low), none) := if_neg hb
      rw [decodeByte_idle_of_ne hb, State.fed, hfeed]; rfl
  | sawSync1 =>
    by_cases hb : b = Config.sync2
    · subst hb; rfl
    · have hfeed : feed .sawSync1 low (.byte b) = ((.idle, low), none) := if_neg hb
      rw [decodeByte_sawSync1_of_ne hb, State.fed, hfeed]; rfl
  | awaitingLow => rfl
  | awaitingHigh => rfl

/-- 42_step_and_stream.md R57: a step is the table applied to the event at the ports. -/
theorem step_eq_fed (s : State) : step s = .next (s.fed s.ports.event) := by
  rw [step, State.decode_stepWord]
  cases s.ports.event with
  | reset => rfl
  | noByte => rfl
  | byte b => exact exec_decodeByte_consume s b

theorem eq_fed_of_step {s t : State} (h : step s = .next t) : t = s.fed s.ports.event := by
  rw [step_eq_fed] at h
  exact (Host.Outcome.next.inj h).symm

/-- 42_step_and_stream.md R59: a run is the fold of the table over the events of its samples. -/
theorem run_eq_feedAll (s : State) (ins rest : List PortIn) :
    Sys2Proof.core.run ins.length (s.presented (ins ++ rest)) = .next
      { state := (feedAll s.state s.low (ins.map PortIn.event)).1.1
        low := (feedAll s.state s.low (ins.map PortIn.event)).1.2
        pending := rest
        outputs := s.outputs ++ (feedAll s.state s.low (ins.map PortIn.event)).2 } := by
  induction ins generalizing s with
  | nil => simp [run_zero, State.presented]
  | cons p ins ih =>
    have hstep : step (s.presented (p :: ins ++ rest)) = .next ((s.fed p.event).presented (ins ++ rest)) :=
      step_eq_fed _
    rw [List.length_cons, run_succ _ hstep, ih]
    simp

/-- The state after presented samples, by the table. -/
theorem after_eq_feedAll (s : State) (ins : List PortIn) :
    s.after ins =
      { state := (feedAll s.state s.low (ins.map PortIn.event)).1.1
        low := (feedAll s.state s.low (ins.map PortIn.event)).1.2
        pending := []
        outputs := s.outputs ++ (feedAll s.state s.low (ins.map PortIn.event)).2 } :=
  after_of_run (by simpa using run_eq_feedAll s ins [])

theorem outputsOf_eq_feedAll (s : State) (ins : List PortIn) :
    s.outputsOf ins = (feedAll s.state s.low (ins.map PortIn.event)).2 := by
  simp [State.outputsOf, after_eq_feedAll]

end Sys2Proof.Machine

/-! ## The invariant -/

namespace Sys2Proof.Machine

/-- A byte is in `low` while a high byte is awaited (10_state.md R19), as the table keeps it. -/
theorem feed_keeps_byte_in_low {st : ParserState} {low : Word} (ev : Event)
    (h : st = .awaitingHigh → low.extractLsb' 8 8 = 0x00#8) :
    (feed st low ev).1.1 = .awaitingHigh → (feed st low ev).1.2.extractLsb' 8 8 = 0x00#8 := by
  rcases feed_cases st ev with rfl | ⟨st', hst', hfeed⟩ | ⟨b, rfl, rfl⟩ | ⟨b, rfl, rfl⟩
  · exact h
  · rw [hfeed]; exact fun hst => absurd hst hst'
  · simp
  · simp

/-- Only `low` is ever emitted, and only from `AwaitingHigh` (41_payload.md R52, R53). -/
theorem awaitingHigh_and_eq_low_of_feed_emits {st : ParserState} {low : Word} {ev : Event} {v : Reading}
    (h : (feed st low ev).2 = some v) : st = .awaitingHigh ∧ v = low := by
  rcases feed_cases st ev with rfl | ⟨st', -, hfeed⟩ | ⟨b, rfl, rfl⟩ | ⟨b, rfl, rfl⟩
  · simp at h
  · simp [hfeed] at h
  · simp at h
  · exact ⟨rfl, by simpa using h.symm⟩

theorem Inv.fed {s : State} (hinv : Inv s) (ev : Event) : Inv (s.fed ev) where
  lowHoldsAByte := feed_keeps_byte_in_low ev hinv.lowHoldsAByte
  readingsAreBytes := by
    intro v hv
    rcases List.mem_append.mp hv with hold | hnew
    · exact hinv.readingsAreBytes v hold
    · obtain ⟨hst, rfl⟩ := awaitingHigh_and_eq_low_of_feed_emits (List.mem_singleton.mp hnew).symm
      exact le_0x00FF_of_upperByte_eq_zero (hinv.lowHoldsAByte hst)

/-- Settles O31: the table keeps the upper byte of `low` zero in `AwaitingHigh`, and the one reading a step can emit is
that `low`. -/
theorem everyStepKeepsInv : Obligations.EveryStepKeepsInv := by
  intro s t hinv hstep
  rw [eq_fed_of_step hstep]
  exact hinv.fed s.ports.event

/-- No high byte is awaited and nothing has been emitted at a launch. -/
theorem inv_launch (x : Word) (ins : List PortIn) : Inv (State.launch x ins) where
  lowHoldsAByte := nofun
  readingsAreBytes := nofun

/-- Settles O30: the reset state is a launch state. -/
theorem resetStateMeetsInv : Obligations.ResetStateMeetsInv :=
  ⟨inv_launch _ _, inv_launch⟩

end Sys2Proof.Machine

/-! ## Which steps write `low` and the control state -/

namespace Sys2Proof.Machine

/-- 10_state.md R12: only a byte in `AwaitingLow` writes `low`. -/
theorem feed_low_of_not_capture {st : ParserState} {ev : Event} (low : Word)
    (h : st ≠ .awaitingLow ∨ ∀ b, ev ≠ .byte b) : (feed st low ev).1.2 = low := by
  rcases feed_cases st ev with rfl | ⟨st', -, hfeed⟩ | ⟨b, rfl, rfl⟩ | ⟨b, rfl, rfl⟩
  · simp
  · simp [hfeed]
  · simp at h
  · simp

/-- Settles O23: a captured byte is zero-extended into all 16 bits; every other row of the table keeps `low`. -/
theorem lowIsWrittenOnlyInAwaitingLow : Obligations.LowIsWrittenOnlyInAwaitingLow := by
  intro s t hstep
  rw [eq_fed_of_step hstep]
  constructor
  · intro b hst hev
    simp [hst, hev]
  · exact feed_low_of_not_capture s.low

/-- Settles O24, by the table's rows of `NoByte` and `Reset`. -/
theorem controlStateMovesOnByteAndResetOnly : Obligations.ControlStateMovesOnByteAndResetOnly := by
  intro s t hstep
  rw [eq_fed_of_step hstep]
  constructor <;> intro hev <;> simp [hev]

/-- 20_memory.md R22: with `rst` at 1 the event is `Reset`, whatever else the ports carry. -/
theorem PortIn.event_of_rst {p : PortIn} (h : p.rst = true) : p.event = .reset := if_pos h

/-- Settles O28: the reset state by its definition, the step by the table's row of `Reset`. -/
theorem resetLeavesIdleAndLowUnchanged : Obligations.ResetLeavesIdleAndLowUnchanged := by
  refine ⟨rfl, rfl, rfl, fun s p rest hpending hrst => ⟨_, step_eq_fed s, ?_⟩⟩
  have hev : s.ports.event = .reset := by rw [State.ports_of_cons hpending, PortIn.event_of_rst hrst]
  simp [hev]

end Sys2Proof.Machine

/-! ## The most recent byte in `low` (10_state.md R19) -/

namespace Sys2Proof.Machine

/-- While a high byte is awaited, `low` is the zero extension of the last of the bytes `seen` so far. -/
def LowIsLastOf (seen : List Byte) (st : ParserState) (low : Word) : Prop :=
  st = .awaitingHigh → ∃ b, seen.getLast? = some b ∧ low = zext16 b

theorem lowIsLastOf_feed {seen : List Byte} {st : ParserState} {low : Word} (h : LowIsLastOf seen st low) (ev : Event) :
    LowIsLastOf (seen ++ ev.byte?.toList) (feed st low ev).1.1 (feed st low ev).1.2 := by
  rcases feed_cases st ev with rfl | ⟨st', hst', hfeed⟩ | ⟨b, rfl, rfl⟩ | ⟨b, rfl, rfl⟩
  · simpa [Event.byte?] using h
  · rw [hfeed]; exact fun hst => absurd hst hst'
  · exact fun _ => ⟨b, by simp [Event.byte?], rfl⟩
  · exact nofun

theorem lowIsLastOf_feedAll {seen : List Byte} {st : ParserState} {low : Word} (h : LowIsLastOf seen st low)
    (evs : List Event) :
    LowIsLastOf (seen ++ evs.filterMap Event.byte?) (feedAll st low evs).1.1 (feedAll st low evs).1.2 := by
  induction evs generalizing seen st low with
  | nil => simpa using h
  | cons ev evs ih =>
    have hsplit : (ev :: evs).filterMap Event.byte? = ev.byte?.toList ++ evs.filterMap Event.byte? := by
      cases ev <;> rfl
    rw [hsplit, ← List.append_assoc]
    exact ih (lowIsLastOf_feed h ev)

end Sys2Proof.Machine

/-! ## Two contents of `low` that cannot be told apart (10_state.md R13) -/

namespace Sys2Proof.Machine

/-- One event, met with two contents of `low` that may differ outside `AwaitingHigh` only. -/
theorem feed_congr_low {st : ParserState} {x y : Word} (h : st = .awaitingHigh → x = y) (ev : Event) :
    (feed st x ev).1.1 = (feed st y ev).1.1 ∧ (feed st x ev).2 = (feed st y ev).2 ∧
    ((feed st x ev).1.1 = .awaitingHigh → (feed st x ev).1.2 = (feed st y ev).1.2) := by
  rcases feed_cases st ev with rfl | ⟨st', hst', hfeed⟩ | ⟨b, rfl, rfl⟩ | ⟨b, rfl, rfl⟩
  · exact ⟨rfl, rfl, h⟩
  · rw [hfeed, hfeed]; exact ⟨rfl, rfl, fun hst => absurd hst hst'⟩
  · exact ⟨rfl, rfl, fun _ => rfl⟩
  · simp [h rfl]

theorem feedAll_congr_low {st : ParserState} {x y : Word} (h : st = .awaitingHigh → x = y) (evs : List Event) :
    (feedAll st x evs).1.1 = (feedAll st y evs).1.1 ∧ (feedAll st x evs).2 = (feedAll st y evs).2 := by
  induction evs generalizing st x y with
  | nil => exact ⟨rfl, rfl⟩
  | cons ev evs ih =>
    obtain ⟨hstate, hout, hlow⟩ := feed_congr_low h ev
    obtain ⟨ihState, ihOut⟩ := ih hlow
    rw [feedAll_cons, feedAll_cons, ← hstate, ← hout]
    exact ⟨ihState, congrArg (_ :: ·) ihOut⟩

/-- Settles O33: outside `AwaitingHigh` two contents of `low` cannot be told apart by the fold of the table. -/
theorem staleLowNeverReachesAnOutput : Obligations.StaleLowNeverReachesAnOutput := by
  intro s x y ins hst
  obtain ⟨hstate, hout⟩ := feedAll_congr_low (x := x) (y := y) (fun h => absurd h hst) (ins.map PortIn.event)
  rw [outputsOf_eq_feedAll, outputsOf_eq_feedAll, after_eq_feedAll, after_eq_feedAll]
  exact ⟨hout, hstate⟩

/-- Settles O32: a launch has seen no byte and awaits none, so the run's last byte is in `low` whenever a high byte is
awaited; and a launch is outside `AwaitingHigh`, so its `low` cannot be told apart from another. -/
theorem lowHoldsTheMostRecentByteInAwaitingHigh : Obligations.LowHoldsTheMostRecentByteInAwaitingHigh := by
  constructor
  · intro x ins hst
    have hlaunch : LowIsLastOf [] .idle x := nofun
    rw [after_eq_feedAll] at hst ⊢
    obtain ⟨b, hlast, hlow⟩ := lowIsLastOf_feedAll hlaunch (ins.map PortIn.event) hst
    rw [List.nil_append, List.filterMap_map] at hlast
    simp only [State.launch_state, State.launch_low, hlow, upperByte_zext16, lowerByte_zext16, true_and]
    exact hlast
  · intro x y ins
    obtain ⟨hstate, hout⟩ := feedAll_congr_low (st := .idle) (x := x) (y := y) nofun (ins.map PortIn.event)
    rw [after_eq_feedAll, after_eq_feedAll]
    exact ⟨hstate, congrArg ([] ++ ·) hout⟩

end Sys2Proof.Machine

/-! ## The output ports, and the record of outputs (20_memory.md R24, R32) -/

namespace Sys2Proof.Machine

/-- The output that a step appends is the one read off the decoded operation, whichever operation that is. -/
theorem outputs_of_step {s t : State} (h : step s = .next t) : t.outputs = s.outputs ++ [s.stepOutput] := by
  rw [step] at h
  rw [State.stepOutput]
  generalize decode s.stepWord = i at h ⊢
  cases i <;> cases h <;> rfl

/-- What is read off the decoded operation is what the transition table gives: a step appends both. -/
theorem State.stepOutput_eq_feed (s : State) : s.stepOutput = (feed s.state s.low s.ports.event).2 := by
  have happended := outputs_of_step (step_eq_fed s)
  rw [State.fed_outputs] at happended
  exact (List.singleton_inj.mp (List.append_cancel_left happended)).symm

@[simp] theorem portsOf_some (v : Reading) : portsOf (some v) = { outValid := true, outReading := v } := rfl
@[simp] theorem portsOf_none : portsOf none = { outValid := false, outReading := 0x0000#16 } := rfl

/-- Settles O27: the ports show the output that the step appends; the transition table gives it from the control state,
`low` and the sample alone. -/
theorem outputPortsShowTheStepsOutput : Obligations.OutputPortsShowTheStepsOutput := by
  constructor
  · intro s
    refine ⟨_, s.stepOutput, step_eq_fed s, outputs_of_step (step_eq_fed s), ?_, ?_⟩
    · intro v hout
      rw [State.outPort, hout, portsOf_some]
    · intro hout
      rw [State.outPort, hout, portsOf_none]
  · intro s u hstate hlow hports
    rw [State.outPort, State.outPort, s.stepOutput_eq_feed, u.stepOutput_eq_feed, hstate, hlow, hports]

/-- Settles O34: the fold of the table starts from the control state and `low`; the record of outputs is only prepended to
what it emits. -/
theorem earlierOutputsDoNotFeedBack : Obligations.EarlierOutputsDoNotFeedBack := by
  intro s os ins
  rw [outputsOf_eq_feedAll, outputsOf_eq_feedAll, after_eq_feedAll, after_eq_feedAll]
  exact ⟨rfl, rfl, rfl⟩

end Sys2Proof.Machine

/-! ## The step word and its layout in bytes: encode and decode are inverse (30_encoding.md R41, R42) -/

namespace Sys2Proof

/-- Two bytes whose upper four bits are zero lay out one step word; what follows them is given back. -/
theorem decodeBytes_cons_cons (lo : Byte) (hi : BitVec 4) (rest : List Byte) :
    decodeBytes (lo :: (0#4 ++ hi) :: rest) = .ok (decode (hi ++ lo), rest) := by
  have hzero : (0#4 ++ hi).extractLsb' 4 4 = 0#4 := BitVec.extractLsb'_append_eq_left
  have hbits : (0#4 ++ hi).extractLsb' 0 4 = hi := BitVec.extractLsb'_append_eq_right
  rw [decodeBytes, if_pos hzero, hbits]

/-- The layout of log entry 10 keeps all twelve bits of the step word. -/
theorem decodeBytes_encodeBytes_append (i : Instr) (rest : List Byte) :
    decodeBytes (encodeBytes i ++ rest) = .ok (decode (encode i), rest) := by
  have hword : (encode i).extractLsb' 8 4 ++ (encode i).extractLsb' 0 8 = encode i :=
    BitVec.extractLsb'_append_extractLsb' (w := 4) (len := 8)
  rw [encodeBytes, List.cons_append, List.cons_append, List.nil_append, decodeBytes_cons_cons, hword]

/-- Settles O5: the round trip of the step word, and the layout in bytes which keeps that word. -/
theorem decodeOfEncodeIsTheOperation : Obligations.DecodeOfEncodeIsTheOperation := by
  intro i hwf
  refine ⟨decode_encode hwf, fun rest => ?_⟩
  rw [decodeBytes_encodeBytes_append, decode_encode hwf]

/-- The three kinds of step words, by `rst` and `in_valid` (30_encoding.md R40). -/
theorem exists_eq_pack (w : StepWord) :
    (∃ v st b, w = packStepWord true v st b) ∨
    (∃ st b, w = packStepWord false false st b) ∨
    (∃ st b, w = packStepWord false true st b) := by
  have hpack := pack_fields w
  cases hrst : StepWord.rst w with
  | true =>
    rw [hrst] at hpack
    exact .inl ⟨_, _, _, hpack.symm⟩
  | false =>
    cases hvalid : StepWord.inValid w with
    | false =>
      rw [hrst, hvalid] at hpack
      exact .inr (.inl ⟨_, _, hpack.symm⟩)
    | true =>
      rw [hrst, hvalid] at hpack
      exact .inr (.inr ⟨_, _, hpack.symm⟩)

theorem encode_decode (w : StepWord) : encode (decode w) = w := by
  rcases exists_eq_pack w with ⟨v, st, b, rfl⟩ | ⟨st, b, rfl⟩ | ⟨st, b, rfl⟩
  · rw [decode_pack_reset, encode_reset]
  · rw [decode_pack_noByte, encode_noByte]
  · rw [decode_pack_byte, encode_decodeByte]

/-- A byte goes to an "other" row only where it is not the excluded one. -/
theorem decodeByte_wf (st : ParserState) (b : Byte) : (decodeByte st b).wf = true := by
  cases st with
  | idle =>
    by_cases hb : b = Config.sync1
    · subst hb; rfl
    · rw [decodeByte_idle_of_ne hb]; exact bne_iff_ne.mpr hb
  | sawSync1 =>
    by_cases hb : b = Config.sync2
    · subst hb; rfl
    · rw [decodeByte_sawSync1_of_ne hb]; exact bne_iff_ne.mpr hb
  | awaitingLow => rfl
  | awaitingHigh => rfl

theorem decode_wf (w : StepWord) : (decode w).wf = true := by
  rcases exists_eq_pack w with ⟨v, st, b, rfl⟩ | ⟨st, b, rfl⟩ | ⟨st, b, rfl⟩
  · rw [decode_pack_reset]; rfl
  · rw [decode_pack_noByte]; rfl
  · rw [decode_pack_byte]; exact decodeByte_wf st b

/-- Settles O6: `decode` answers well-formed operations only, and `encode` is its inverse. -/
theorem encodeOfDecodeIsTheStepWord : Obligations.EncodeOfDecodeIsTheStepWord :=
  fun w => ⟨decode_wf w, encode_decode w⟩

/-- Settles O2: each written-out word is the encoding of its operation. -/
theorem writtenOutWordsDecode : Obligations.WrittenOutWordsDecode :=
  ⟨decode_encode (i := .reset false .idle 0x00#8) rfl,
    decode_encode (i := .noByte .awaitingHigh 0x24#8) rfl,
    decode_encode (i := .idleSync1) rfl,
    decode_encode (i := .idleSkip 0x4D#8) rfl,
    decode_encode (i := .sync1Sync2) rfl,
    decode_encode (i := .sync1Resync 0x24#8) rfl,
    decode_encode (i := .lowCapture 0x80#8) rfl,
    decode_encode (i := .highEmit 0xFF#8) rfl⟩

end Sys2Proof

/-! ## The rows of the decode map (30_encoding.md R41, R46) -/

namespace Sys2Proof

theorem OpcodeRow.matchesMask_iff (r : OpcodeRow) (w : StepWord) :
    r.matchesMask w = true ↔ w &&& r.mask = r.matchBits :=
  beq_iff_eq

theorem OpcodeRow.selects_iff (r : OpcodeRow) (w : StepWord) :
    r.selects w = true ↔ r.matchesMask w = true ∧ w ∉ r.excludes := by
  simp [OpcodeRow.selects]

/-- Every well-formed operation carries its row's match bits (30_encoding.md R41). -/
theorem encodeMatchesRow (i : Instr) : Laws.EncodeMatchesRow.Statement i := by
  cases i with
  | reset v st b => exact Laws.EncodeMatchesRow.reset v st b
  | noByte st b => exact Laws.EncodeMatchesRow.noByte st b
  | idleSync1 => exact Laws.EncodeMatchesRow.idleSync1
  | idleSkip b => exact Laws.EncodeMatchesRow.idleSkip b
  | sync1Sync2 => exact Laws.EncodeMatchesRow.sync1Sync2
  | sync1Resync b => exact Laws.EncodeMatchesRow.sync1Resync b
  | lowCapture b => exact Laws.EncodeMatchesRow.lowCapture b
  | highEmit b => exact Laws.EncodeMatchesRow.highEmit b

/-- The decoded operation's row selects the word. -/
theorem exists_row_selects (w : StepWord) :
    ∃ r ∈ opcodeTable, r.selects w = true ∧ r.mnemonic = (decode w).mnemonic := by
  obtain ⟨r, hr, hname, hmatch, hexcl⟩ := encodeMatchesRow (decode w) (decode_wf w)
  rw [encode_decode] at hmatch hexcl
  exact ⟨r, hr, (r.selects_iff w).mpr ⟨(r.matchesMask_iff w).mpr hmatch, hexcl⟩, hname⟩

/-- No word with the pattern of `r` is selected by `r'`: their patterns differ in a bit that both fix, or `r` fixes
every bit and its one word is excluded from `r'`. -/
def OpcodeRow.KeepsFrom (r r' : OpcodeRow) : Prop :=
  r.matchBits &&& r'.mask ≠ r'.matchBits &&& r.mask ∨
  (r.mask = BitVec.allOnes 12 ∧ r.matchBits ∈ r'.excludes)

theorem OpcodeRow.KeepsFrom.not_matchesMask {r r' : OpcodeRow} (h : r.KeepsFrom r') {w : StepWord}
    (hsel : r'.selects w = true) : r.matchesMask w = false := by
  obtain ⟨hmatch', hexcl⟩ := (r'.selects_iff w).mp hsel
  rw [OpcodeRow.matchesMask_iff] at hmatch'
  rw [← Bool.not_eq_true, OpcodeRow.matchesMask_iff]
  intro hmatch
  rcases h with hbit | ⟨hmask, hmem⟩
  · have hboth : r.matchBits &&& r'.mask = r'.matchBits &&& r.mask := by
      rw [← hmatch, ← hmatch', BitVec.and_assoc, BitVec.and_assoc, BitVec.and_comm r.mask]
    exact hbit hboth
  · rw [hmask, BitVec.and_allOnes] at hmatch
    exact hexcl (hmatch ▸ hmem)

/-- A row of the table is kept from every row that stands after it. -/
theorem opcodeTable_pairwise_keepsFrom : opcodeTable.Pairwise OpcodeRow.KeepsFrom := by
  unfold OpcodeRow.KeepsFrom
  decide

theorem firstMatchingRow_of_selects {w : StepWord} {r : OpcodeRow} (hr : r ∈ opcodeTable)
    (hsel : r.selects w = true) : firstMatchingRow w = some r := by
  obtain ⟨before, after, htable⟩ := List.append_of_mem hr
  have hpairs := opcodeTable_pairwise_keepsFrom
  rw [htable] at hpairs
  obtain ⟨-, -, hkeeps⟩ := List.pairwise_append.mp hpairs
  refine List.find?_eq_some_iff_append.mpr ⟨((r.selects_iff w).mp hsel).1, before, after, htable, fun q hq => ?_⟩
  rw [(hkeeps q hq r List.mem_cons_self).not_matchesMask hsel, Bool.not_false]

/-- Settles O4: some row selects the word, and a row that selects it is the first that matches. -/
theorem priorityReadingEqualsExclusionReading : Obligations.PriorityReadingEqualsExclusionReading := by
  refine ⟨rfl, fun w r => ⟨fun hfirst => ?_, fun ⟨hr, hsel⟩ => firstMatchingRow_of_selects hr hsel⟩⟩
  obtain ⟨q, hq, hsel, -⟩ := exists_row_selects w
  have hqr : q = r := Option.some.inj ((firstMatchingRow_of_selects hq hsel).symm.trans hfirst)
  subst hqr
  exact ⟨hq, hsel⟩

end Sys2Proof

/-! ## How many words a row selects -/

namespace Sys2Proof

/-- Clearing the lower `k` bits rounds down to a multiple of `2 ^ k`. -/
theorem toNat_and_allOnes_shiftLeft {n : Nat} (w : BitVec n) (k : Nat) :
    (w &&& BitVec.allOnes n <<< k).toNat = w.toNat / 2 ^ k * 2 ^ k := by
  have hlt : w.toNat / 2 ^ k * 2 ^ k < 2 ^ n := (Nat.div_mul_le_self _ _).trans_lt w.isLt
  rw [← BitVec.shiftLeft_ushiftRight, BitVec.toNat_shiftLeft, BitVec.toNat_ushiftRight, Nat.shiftRight_eq_div_pow,
    Nat.shiftLeft_eq, Nat.mod_eq_of_lt hlt]

theorem length_filter_range (p : Nat → Bool) (n : Nat) :
    ((List.range n).filter p).length = ((Finset.range n).filter fun i => p i = true).card := by
  rw [← List.countP_eq_length_filter, ← Nat.count_eq_card_filter_range, Nat.count]
  simp

/-- The row leaves the lower `k` bits open and fixes the bits above them; its excluded words are distinct words of its
pattern, and what is left is as many words as the table says. -/
structure OpcodeRow.LeavesOpen (r : OpcodeRow) (k : Nat) : Prop where
  mask_eq : r.mask = BitVec.allOnes 12 <<< k
  dvd_matchBits : 2 ^ k ∣ r.matchBits.toNat
  block_le : r.matchBits.toNat + 2 ^ k ≤ 4096
  excludes_nodup : r.excludes.Nodup
  excludes_match : r.excludes.all r.matchesMask = true
  wordsSelected_eq : r.wordsSelected = 2 ^ k - r.excludes.length

/-- The block of numbers whose step words have the row's pattern. -/
def OpcodeRow.block (r : OpcodeRow) (k : Nat) : Finset Nat :=
  Finset.Ico r.matchBits.toNat (r.matchBits.toNat + 2 ^ k)

namespace OpcodeRow.LeavesOpen

variable {r : OpcodeRow} {k : Nat}

theorem matchesMask_iff (h : r.LeavesOpen k) (w : StepWord) : r.matchesMask w = true ↔ w.toNat ∈ r.block k := by
  obtain ⟨q, hq⟩ := h.dvd_matchBits
  have hpos : 0 < 2 ^ k := Nat.two_pow_pos k
  rw [OpcodeRow.matchesMask_iff, h.mask_eq, ← BitVec.toNat_inj, toNat_and_allOnes_shiftLeft, OpcodeRow.block,
    Finset.mem_Ico, hq, Nat.mul_comm (2 ^ k) q, Nat.mul_left_inj hpos.ne', Nat.div_eq_iff hpos]
  omega

/-- The selected numbers are those of the block, less the excluded ones. -/
theorem selected_eq (h : r.LeavesOpen k) :
    (Finset.range 4096).filter (fun n => r.selects (BitVec.ofNat 12 n)) =
      r.block k \ (r.excludes.map BitVec.toNat).toFinset := by
  ext n
  have hblock : n ∈ r.block k → n < 4096 := fun hn => (Finset.mem_Ico.mp hn).2.trans_le h.block_le
  by_cases hn : n < 4096
  · have hnum : (BitVec.ofNat 12 n).toNat = n := Nat.mod_eq_of_lt hn
    have hmem : BitVec.ofNat 12 n ∈ r.excludes ↔ n ∈ r.excludes.map BitVec.toNat := by
      rw [← List.mem_map_of_injective (fun _ _ => BitVec.eq_of_toNat_eq), hnum]
    rw [Finset.mem_filter, Finset.mem_sdiff, List.mem_toFinset, OpcodeRow.selects_iff, h.matchesMask_iff, hnum, hmem,
      Finset.mem_range, and_iff_right hn]
  · simp [hn, mt hblock hn]

theorem length_filter_selects (h : r.LeavesOpen k) :
    ((List.range 4096).filter fun n => r.selects (BitVec.ofNat 12 n)).length = r.wordsSelected := by
  have hnodup : (r.excludes.map BitVec.toNat).Nodup := h.excludes_nodup.map fun _ _ => BitVec.eq_of_toNat_eq
  have hsub : (r.excludes.map BitVec.toNat).toFinset ⊆ r.block k := by
    intro n hn
    obtain ⟨w, hw, rfl⟩ := List.mem_map.mp (List.mem_toFinset.mp hn)
    exact (h.matchesMask_iff w).mp (List.all_eq_true.mp h.excludes_match w hw)
  calc ((List.range 4096).filter fun n => r.selects (BitVec.ofNat 12 n)).length
      = ((Finset.range 4096).filter fun n => r.selects (BitVec.ofNat 12 n)).card :=
        length_filter_range _ _
    _ = (r.block k).card - (r.excludes.map BitVec.toNat).toFinset.card := by
        rw [h.selected_eq, Finset.card_sdiff_of_subset hsub]
    _ = r.wordsSelected := by
        rw [OpcodeRow.block, Nat.card_Ico, List.toFinset_card_of_nodup hnodup, List.length_map, h.wordsSelected_eq,
          Nat.add_sub_cancel_left]

end OpcodeRow.LeavesOpen

theorem exists_leavesOpen {r : OpcodeRow} (hr : r ∈ opcodeTable) : ∃ k, r.LeavesOpen k := by
  simp only [opcodeTable, List.mem_cons, List.not_mem_nil, or_false] at hr
  rcases hr with rfl | rfl | rfl | rfl | rfl | rfl | rfl | rfl
  · exact ⟨11, by constructor <;> decide⟩
  · exact ⟨10, by constructor <;> decide⟩
  · exact ⟨0, by constructor <;> decide⟩
  · exact ⟨8, by constructor <;> decide⟩
  · exact ⟨0, by constructor <;> decide⟩
  · exact ⟨8, by constructor <;> decide⟩
  · exact ⟨8, by constructor <;> decide⟩
  · exact ⟨8, by constructor <;> decide⟩

/-- Settles O3: the decoded operation's row selects the word, it is the first that matches and so the only one, and a
row's pattern is a block of numbers from which its excluded words are taken. -/
theorem everyStepWordSelectsExactlyOneRow : Obligations.EveryStepWordSelectsExactlyOneRow := by
  constructor
  · intro w
    obtain ⟨r, hr, hsel, hname⟩ := exists_row_selects w
    refine ⟨r, hr, hsel, hname, fun q hq hqsel => ?_⟩
    exact Option.some.inj ((firstMatchingRow_of_selects hq hqsel).symm.trans (firstMatchingRow_of_selects hr hsel))
  · intro r hr
    obtain ⟨k, hopen⟩ := exists_leavesOpen hr
    exact hopen.length_filter_selects

end Sys2Proof

/-! ## The fields of a step's word, and the meaning of a byte (30_encoding.md R40, R44, R38) -/

namespace Sys2Proof

theorem ParserState.code_inj {st st' : ParserState} : st.code = st'.code ↔ st = st' :=
  (Function.LeftInverse.injective ParserState.ofCode_code).eq_iff

theorem decode_of_rst {w : StepWord} (h : w.getLsbD 11 = true) :
    decode w = .reset (StepWord.inValid w) (StepWord.control w) (StepWord.byte w) :=
  if_pos h

theorem decode_of_no_byte {w : StepWord} (hrst : w.getLsbD 11 = false) (hvalid : w.getLsbD 10 = false) :
    decode w = .noByte (StepWord.control w) (StepWord.byte w) :=
  (if_neg (Bool.eq_false_iff.mp hrst)).trans (if_neg (Bool.eq_false_iff.mp hvalid))

theorem decode_of_byte {w : StepWord} (hrst : w.getLsbD 11 = false) (hvalid : w.getLsbD 10 = true) :
    decode w = decodeByte (StepWord.control w) (StepWord.byte w) :=
  (if_neg (Bool.eq_false_iff.mp hrst)).trans (if_pos hvalid)

end Sys2Proof

namespace Sys2Proof.Machine

theorem exec_reset (v : Bool) (st : ParserState) (b : Byte) (s : State) : exec (.reset v st b) s = execReset s := rfl

theorem exec_noByte (st : ParserState) (b : Byte) (s : State) : exec (.noByte st b) s = execNoByte s := rfl

theorem State.stepWord_of_cons {s : State} {p : PortIn} {rest : List PortIn} (h : s.pending = p :: rest) :
    s.stepWord = packStepWord p.rst p.inValid s.state p.inByte := by
  rw [State.stepWord, State.ports_of_cons h]

/-- Settles O1: the fields are those of the packed word; RESET and NOBYTE pass none of their fields on. -/
theorem stepWordIsPortsAndControlState : Obligations.StepWordIsPortsAndControlState := by
  constructor
  · intro s p rest hpending
    rw [State.stepWord_of_cons hpending, extractLsb_code_pack]
    exact ⟨StepWord.rst_pack .., StepWord.inValid_pack .., ParserState.code_inj.symm, ParserState.code_inj.symm,
      ParserState.code_inj.symm, ParserState.code_inj.symm, StepWord.byte_pack ..⟩
  · intro s w w'
    refine ⟨?_, ?_, decode_of_byte⟩
    · intro hrst hrst'
      rw [decode_of_rst hrst, decode_of_rst hrst', exec_reset, exec_reset]
    · intro hrst hvalid hrst' hvalid'
      rw [decode_of_no_byte hrst hvalid, decode_of_no_byte hrst' hvalid', exec_noByte, exec_noByte]

theorem State.decode_stepWord_of_byte {s : State} {b : Byte} (h : s.ports.event = .byte b) :
    decode s.stepWord = decodeByte s.state b := by
  rw [State.decode_stepWord, h]

/-- Settles O22: the operation of a byte step is the grid's, whose entries in the column of `0x24` are read off. -/
theorem meaningOfAByteDependsOnTheControlStateOnly : Obligations.MeaningOfAByteDependsOnTheControlStateOnly := by
  constructor
  · intro s u b hs hu hstate
    rw [State.decode_stepWord_of_byte hs, State.decode_stepWord_of_byte hu, hstate]
  · intro s hs
    rw [State.decode_stepWord_of_byte hs]
    refine ⟨?_, ?_, ?_, ?_⟩ <;> intro hstate <;> rw [hstate] <;> rfl

theorem feed_idle_byte_state (low : Word) (b : Byte) :
    (feed .idle low (.byte b)).1.1 = if b = 0x24#8 then .sawSync1 else .idle := by
  rw [feed]; split <;> rfl

theorem feed_sawSync1_byte_state (low : Word) (b : Byte) :
    (feed .sawSync1 low (.byte b)).1.1 = if b = 0x4D#8 then .awaitingLow else .idle := by
  rw [feed]; split <;> rfl

/-- Settles O25, by the table's rows of the two sync states. -/
theorem onlyTheExactSyncBytesAdvance : Obligations.OnlyTheExactSyncBytesAdvance := by
  intro s t b hev hstep
  rw [eq_fed_of_step hstep, State.fed_state, hev]
  constructor
  · intro hstate
    rw [hstate, feed_idle_byte_state]
    exact ⟨by simp, by rintro rfl; rfl⟩
  · intro hstate
    rw [hstate, feed_sawSync1_byte_state]
    exact ⟨by simp, by rintro rfl; rfl⟩

end Sys2Proof.Machine

/-! ## The operation that a step word selects (30_encoding.md R41) -/

namespace Sys2Proof

/-- A well-formed operation is selected by its own encoding alone, an ill-formed one by no word. -/
theorem decode_eq_iff {w : StepWord} {i : Instr} : decode w = i ↔ i.wf = true ∧ w = encode i := by
  constructor
  · rintro rfl
    exact ⟨decode_wf w, (encode_decode w).symm⟩
  · rintro ⟨hwf, rfl⟩
    exact decode_encode hwf

theorem stepWord_eq_append_iff {w : StepWord} {hi : BitVec 4} {b : Byte} :
    w = hi ++ b ↔ w.extractLsb' 8 4 = hi ∧ w.extractLsb' 0 8 = b := by
  constructor
  · rintro rfl
    exact ⟨BitVec.extractLsb'_append_eq_left, BitVec.extractLsb'_append_eq_right⟩
  · rintro ⟨rfl, rfl⟩
    exact (BitVec.extractLsb'_append_extractLsb' (w := 4) (len := 8)).symm

/-- Selection of an operation whose row fixes the upper four bits and takes the byte from the lower eight. -/
theorem decode_eq_iff_of_encode_eq_append {w : StepWord} {i : Instr} {hi : BitVec 4} {b : Byte}
    (hencode : encode i = hi ++ b) :
    decode w = i ↔ w.extractLsb' 8 4 = hi ∧ w.extractLsb' 0 8 = b ∧ i.wf = true := by
  rw [decode_eq_iff, hencode, stepWord_eq_append_iff, and_comm, and_assoc]

theorem encode_idleSkip (b : Byte) : encode (.idleSkip b) = 0b0100#4 ++ b := rfl

theorem encode_sync1Resync (b : Byte) : encode (.sync1Resync b) = 0b0101#4 ++ b := rfl

theorem wf_idleSkip_iff {b : Byte} : (Instr.idleSkip b).wf = true ↔ b ≠ 0x24#8 := bne_iff_ne

theorem wf_sync1Resync_iff {b : Byte} : (Instr.sync1Resync b).wf = true ↔ b ≠ 0x4D#8 := bne_iff_ne

end Sys2Proof

/-! ## Sync-marker detection (40_sync_detect.md R47 to R50) -/

namespace Sys2Proof.Machine

/-- Settles O9: the word is the encoding of IDLE.SYNC1. -/
theorem idleSync1AcceptsTheFirstSyncByte : Obligations.IdleSync1AcceptsTheFirstSyncByte :=
  ⟨fun _ => decode_eq_iff.trans (and_iff_right rfl), fun _ => rfl⟩

/-- Settles O10: IDLE.SKIP is well-formed on every byte but the first sync byte. -/
theorem idleSkipStaysInIdle : Obligations.IdleSkipStaysInIdle := by
  refine ⟨fun w b => ?_, fun _ _ => rfl⟩
  rw [decode_eq_iff_of_encode_eq_append (encode_idleSkip b), wf_idleSkip_iff]

/-- Without a byte and without a reset there are `NoByte` events only (42_step_and_stream.md R56). -/
theorem feedAll_of_no_byte (st : ParserState) (low : Word) {evs : List Event} (hreset : .reset ∉ evs)
    (hbytes : evs.filterMap Event.byte? = []) : (feedAll st low evs).1 = (st, low) := by
  induction evs with
  | nil => rfl
  | cons ev evs ih =>
    cases ev with
    | reset => exact absurd List.mem_cons_self hreset
    | noByte => exact ih (mt (List.mem_cons_of_mem _) hreset) hbytes
    | byte b => cases hbytes

/-- In `AwaitingLow` the first byte to come is captured, and the second one is waited for (41_payload.md R51). -/
theorem feedAll_awaitingLow_of_one_byte (low : Word) {evs : List Event} {b : Byte} (hreset : .reset ∉ evs)
    (hbytes : evs.filterMap Event.byte? = [b]) :
    (feedAll .awaitingLow low evs).1 = (.awaitingHigh, zext16 b) := by
  induction evs with
  | nil => cases hbytes
  | cons ev evs ih =>
    have hrest : Event.reset ∉ evs := mt (List.mem_cons_of_mem _) hreset
    cases ev with
    | reset => exact absurd List.mem_cons_self hreset
    | noByte => exact ih hrest hbytes
    | byte c =>
      obtain ⟨rfl, hnone⟩ := List.cons.inj hbytes
      exact feedAll_of_no_byte .awaitingHigh (zext16 c) hrest hnone

/-- Settles O11: the word is the encoding of SYNC1.SYNC2; without a byte the block stays in `AwaitingLow`, one byte
takes it to `AwaitingHigh`. -/
theorem sync1Sync2AcceptsTheSecondSyncByte : Obligations.Sync1Sync2AcceptsTheSecondSyncByte := by
  refine ⟨fun _ => decode_eq_iff.trans (and_iff_right rfl), fun _ => rfl, fun s ins hstate hnoReset hlen => ?_⟩
  have hreset : Event.reset ∉ ins.map PortIn.event := by
    simpa using hnoReset
  have hbytes : (ins.map PortIn.event).filterMap Event.byte? = ins.filterMap fun p => p.event.byte? :=
    List.filterMap_map
  rw [← hbytes] at hlen
  rw [after_eq_feedAll, hstate]
  rcases hseen : (ins.map PortIn.event).filterMap Event.byte? with _ | ⟨b, _ | ⟨c, cs⟩⟩
  · simp [feedAll_of_no_byte .awaitingLow s.low hreset hseen]
  · simp [feedAll_awaitingLow_of_one_byte s.low hreset hseen]
  · simp [hseen] at hlen

/-- 42_step_and_stream.md R60, the table's half: nothing is emitted outside `AwaitingHigh`. -/
theorem feed_output_of_ne_awaitingHigh {st : ParserState} (h : st ≠ .awaitingHigh) (low : Word) (ev : Event) :
    (feed st low ev).2 = none :=
  Option.eq_none_iff_forall_ne_some.mpr fun _ hout => h (awaitingHigh_and_eq_low_of_feed_emits hout).1

/-- One byte does not lead from `Idle` to `AwaitingHigh`. -/
theorem feed_idle_byte_state_ne_awaitingHigh (low : Word) (b : Byte) :
    (feed .idle low (.byte b)).1.1 ≠ .awaitingHigh := by
  rw [feed_idle_byte_state]
  split <;> decide

theorem feedAll_idle_two_bytes_outputs (low : Word) (b c : Byte) :
    (feedAll .idle low [.byte b, .byte c]).2 = [none, none] := by
  have hfirst : (feed .idle low (.byte b)).2 = none := feed_output_of_ne_awaitingHigh (st := .idle) nofun low _
  have hsecond : (feed (feed .idle low (.byte b)).1.1 (feed .idle low (.byte b)).1.2 (.byte c)).2 = none :=
    feed_output_of_ne_awaitingHigh (feed_idle_byte_state_ne_awaitingHigh low b) _ _
  simp only [feedAll_cons, feedAll_nil, hfirst, hsecond]

/-- 40_sync_detect.md R50: a second `0x24` is not looked at again; the block is back where it was. -/
theorem feedAll_idle_sync1_sync1 (low : Word) (evs : List Event) :
    feedAll .idle low (.byte 0x24#8 :: .byte 0x24#8 :: evs) =
      ((feedAll .idle low evs).1, none :: none :: (feedAll .idle low evs).2) := rfl

/-- A `0x4D` in `Idle` is a noise byte (40_sync_detect.md R48). -/
theorem feedAll_idle_sync2 (low : Word) (evs : List Event) :
    feedAll .idle low (.byte 0x4D#8 :: evs) = ((feedAll .idle low evs).1, none :: (feedAll .idle low evs).2) := rfl

/-- Settles O12: SYNC1.RESYNC is well-formed on every byte but the second sync byte; two bytes `0x24` cancel in front of
any stream, and of the three bytes that are left in the last one the first is noise and two are too few for a frame. -/
theorem sync1ResyncReturnsToIdle : Obligations.Sync1ResyncReturnsToIdle := by
  refine ⟨fun w b => ?_, fun _ _ => rfl, fun x l h => ?_⟩
  · rw [decode_eq_iff_of_encode_eq_append (encode_sync1Resync b), wf_sync1Resync_iff]
  simp only [after_eq_feedAll, samples_events, List.map_cons, List.map_nil, State.launch_state, State.launch_low,
    State.launch_outputs, feedAll_idle_sync1_sync1]
  refine ⟨rfl, rfl, ?_⟩
  rw [feedAll_idle_sync2, feedAll_idle_two_bytes_outputs]
  rfl

end Sys2Proof.Machine

/-! ## The combination rule and its arithmetic (41_payload.md R53, R54) -/

namespace Sys2Proof.Machine

theorem toNat_zext16 (b : Byte) : (zext16 b).toNat = b.toNat :=
  BitVec.toNat_setWidth_of_le (by decide)

/-- At every width the shift clears the bits below position `k`, where a mask below `2 ^ k` has all of its bits. -/
theorem shiftLeft_and_ofNat_eq_zero {n k m : Nat} (x : BitVec n) (hm : m < 2 ^ k) :
    (x <<< k) &&& BitVec.ofNat n m = 0#n := by
  apply BitVec.eq_of_getLsbD_eq
  intro i hi
  by_cases hik : i < k
  · simp [hik]
  · have hbit : m.testBit i = false :=
      Nat.testBit_lt_two_pow (hm.trans_le (Nat.pow_le_pow_right Nat.two_pos (Nat.le_of_not_lt hik)))
    simp [BitVec.getLsbD_ofNat, hbit]

/-- No set bit of the byte is shifted out of the 16 bits. -/
theorem toNat_zext16_shiftLeft_8 (b : Byte) : (zext16 b <<< 8).toNat = b.toNat * 256 := by
  have hfits : b.toNat * 256 < 2 ^ 16 := Nat.mul_lt_mul_of_pos_right b.isLt (by decide)
  rw [BitVec.toNat_shiftLeft, toNat_zext16, Nat.shiftLeft_eq]
  exact Nat.mod_eq_of_lt hfits

/-- Settles O16: extension and shift fit into 16 bits; the mask has no bit that the shift leaves set, at any width. -/
theorem highByteTermIsZeroAndNothingIsLost : Obligations.HighByteTermIsZeroAndNothingIsLost :=
  fun b => ⟨toNat_zext16 b, toNat_zext16_shiftLeft_8 b, highTerm_eq_zero b,
    fun n => shiftLeft_and_ofNat_eq_zero (b.setWidth n) (by decide)⟩

/-- Settles O15: the formula is the model's definition, and its second operand is zero. -/
theorem combinationEqualsLow : Obligations.CombinationEqualsLow :=
  fun low b => ⟨rfl, combine_eq_low low b⟩

end Sys2Proof.Machine

/-! ## The two payload operations (41_payload.md R51, R52) -/

namespace Sys2Proof

theorem encode_lowCapture (b : Byte) : encode (.lowCapture b) = 0b0110#4 ++ b := rfl

theorem encode_highEmit (b : Byte) : encode (.highEmit b) = 0b0111#4 ++ b := rfl

theorem wf_lowCapture (b : Byte) : (Instr.lowCapture b).wf = true := rfl

theorem wf_highEmit (b : Byte) : (Instr.highEmit b).wf = true := rfl

end Sys2Proof

namespace Sys2Proof.Machine

/-- 42_step_and_stream.md R58: no operation faults or is refused, on any state. -/
theorem exists_exec_eq_next (i : Instr) (s : State) : ∃ t, exec i s = .next t := by
  cases i <;> exact ⟨_, rfl⟩

theorem low_eq_of_exec {i : Instr} {s t : State} (hi : ∀ b, i ≠ .lowCapture b) (h : exec i s = .next t) :
    t.low = s.low := by
  rcases exec_cases h with rfl | rfl | rfl | rfl | ⟨b, hcapture, -⟩ | ⟨_, _, rfl⟩
  · rfl
  · rfl
  · rfl
  · rfl
  · exact absurd hcapture (hi b)
  · rfl

theorem outputs_eq_of_exec {i : Instr} {s t : State} (hi : ∀ b, i ≠ .highEmit b) (h : exec i s = .next t) :
    t.outputs = s.outputs ++ [none] := by
  rcases exec_cases h with rfl | rfl | rfl | rfl | ⟨_, _, rfl⟩ | ⟨b, hemit, -⟩
  · rfl
  · rfl
  · rfl
  · rfl
  · rfl
  · exact absurd hemit (hi b)

/-- The zero extension, written out as the byte below eight zero bits. -/
theorem zext16_eq_append (b : Byte) : zext16 b = 0x00#8 ++ b :=
  BitVec.setWidth_eq_append (by decide)

theorem exec_lowCapture (b : Byte) (s : State) :
    exec (.lowCapture b) s = .next
      { state := .awaitingHigh, low := zext16 b, pending := s.pending, outputs := s.outputs ++ [none] } := rfl

theorem exec_highEmit (b : Byte) (s : State) :
    exec (.highEmit b) s = .next
      { state := .idle, low := s.low, pending := s.pending, outputs := s.outputs ++ [some (combine s.low b)] } := rfl

/-- Settles O13: LOW.CAPTURE is well-formed on every byte, and `exec_cases` names it as the only operation that
writes `low`. -/
theorem lowCaptureStoresTheByteZeroExtended : Obligations.LowCaptureStoresTheByteZeroExtended := by
  refine ⟨fun w b => ?_, fun s b => ?_, fun s i hi => ?_⟩
  · rw [decode_eq_iff_of_encode_eq_append (encode_lowCapture b), and_iff_left (wf_lowCapture b)]
  · rw [exec_lowCapture, zext16_eq_append]
  · obtain ⟨t, ht⟩ := exists_exec_eq_next i s
    exact ⟨t, ht, low_eq_of_exec hi ht⟩

/-- Settles O14: HIGH.EMIT is well-formed on every byte and emits the combination, which is `low`; `exec_cases` names it
as the only operation that emits. -/
theorem highEmitEmitsLow : Obligations.HighEmitEmitsLow := by
  refine ⟨fun w b => ?_, fun s b => ⟨exec_highEmit b s, ?_⟩, fun s i hi => ?_⟩
  · rw [decode_eq_iff_of_encode_eq_append (encode_highEmit b), and_iff_left (wf_highEmit b)]
  · rw [exec_highEmit, combine_eq_low]
  · obtain ⟨t, ht⟩ := exists_exec_eq_next i s
    exact ⟨t, ht, outputs_eq_of_exec hi ht⟩

end Sys2Proof.Machine

/-! ## The readings of runs from reset (41_payload.md R55) -/

namespace Sys2Proof.Machine

theorem State.after_nil (s : State) : s.after [] = s.presented [] := rfl

theorem State.after_cons (s : State) (p : PortIn) (ins : List PortIn) :
    s.after (p :: ins) = (s.fed p.event).after ins := by
  simp [after_eq_feedAll]

/-- The invariant does not look at the samples to come. -/
theorem Inv.presented {s : State} (hinv : Inv s) (ins : List PortIn) : Inv (s.presented ins) :=
  ⟨hinv.lowHoldsAByte, hinv.readingsAreBytes⟩

theorem Inv.after {s : State} (hinv : Inv s) (ins : List PortIn) : Inv (s.after ins) := by
  induction ins generalizing s with
  | nil =>
    rw [State.after_nil]
    exact hinv.presented []
  | cons p ins ih =>
    rw [State.after_cons]
    exact ih (hinv.fed p.event)

/-- A frame met in `Idle`, in front of any stream: it emits its low byte, and the block is back in `Idle`. -/
theorem feedAll_idle_frame (low : Word) (l h : Byte) (evs : List Event) :
    feedAll .idle low (.byte 0x24#8 :: .byte 0x4D#8 :: .byte l :: .byte h :: evs) =
      ((feedAll .idle (zext16 l) evs).1,
        none :: none :: none :: some (zext16 l) :: (feedAll .idle (zext16 l) evs).2) := by
  have hsync1 : feed .idle low (.byte 0x24#8) = ((.sawSync1, low), none) := rfl
  have hsync2 : feed .sawSync1 low (.byte 0x4D#8) = ((.awaitingLow, low), none) := rfl
  simp [hsync1, hsync2]

/-- A value that fits into a byte is the zero extension of its lower eight bits. -/
theorem zext16_setWidth_of_le {v : Reading} (h : v ≤ 0x00FF#16) : zext16 (v.setWidth 8) = v := by
  have hlt : v.toNat < 2 ^ 8 := Nat.lt_succ_of_le (BitVec.le_def.mp h)
  rw [← BitVec.toNat_inj, toNat_zext16, BitVec.toNat_setWidth, Nat.mod_eq_of_lt hlt]

/-- Settles O53: a value that fits into a byte is emitted by a frame with that low byte, right after a launch; and the
invariant, which bounds the readings, holds at a launch and through every run. -/
theorem readingsAreExactlyTheByteValues : Obligations.ReadingsAreExactlyTheByteValues := by
  intro v
  constructor
  · intro hv
    have hframe : some v ∈
        (feedAll .idle 0x0000#16 [.byte 0x24#8, .byte 0x4D#8, .byte (v.setWidth 8), .byte 0x00#8]).2 := by
      rw [feedAll_idle_frame, zext16_setWidth_of_le hv]
      simp
    refine ⟨0x0000#16, samples [0x24#8, 0x4D#8, v.setWidth 8, 0x00#8], ?_⟩
    rw [after_eq_feedAll, samples_events]
    exact List.mem_append_right [] hframe
  · rintro ⟨x, ins, hmem⟩
    exact ((inv_launch x []).after ins).readingsAreBytes v hmem

end Sys2Proof.Machine

/-! ## One step: the table's row, one output (42_step_and_stream.md R56 to R60) -/

namespace Sys2Proof.Machine

/-- Settles O18: the event at the ports is that of the first pending sample. -/
theorem stepFollowsTheTransitionTable : Obligations.StepFollowsTheTransitionTable := by
  intro s p rest hpending
  rw [step_eq_fed, State.ports_of_cons hpending, State.fed, hpending, List.tail_cons]

theorem outputs_append_of_exec {i : Instr} {s t : State} (h : exec i s = .next t) :
    ∃ o, t.outputs = s.outputs ++ [o] := by
  rcases exec_cases h with rfl | rfl | rfl | rfl | ⟨_, _, rfl⟩ | ⟨_, _, rfl⟩ <;> exact ⟨_, rfl⟩

/-- Settles O20: the step by the transition table, an operation by `exec_cases`. -/
theorem everyStepAnswersANextState : Obligations.EveryStepAnswersANextState := by
  refine ⟨fun s => ⟨_, _, step_eq_fed s, s.fed_outputs _⟩, fun i s => ?_⟩
  obtain ⟨t, ht⟩ := exists_exec_eq_next i s
  obtain ⟨o, ho⟩ := outputs_append_of_exec ht
  exact ⟨t, o, ht, ho⟩

/-- 42_step_and_stream.md R60, as the table has it. -/
theorem feed_output_isSome_iff (st : ParserState) (low : Word) (ev : Event) :
    (feed st low ev).2.isSome = true ↔ st = .awaitingHigh ∧ ∃ b, ev = .byte b := by
  constructor
  · intro hsome
    obtain ⟨v, hout⟩ := Option.isSome_iff_exists.mp hsome
    cases ev with
    | reset => cases hout
    | noByte => cases hout
    | byte b => exact ⟨(awaitingHigh_and_eq_low_of_feed_emits hout).1, b, rfl⟩
  · rintro ⟨rfl, b, rfl⟩
    rfl

/-- Settles O21: the output of a step is the table's. -/
theorem onlyAByteInAwaitingHighEmits : Obligations.OnlyAByteInAwaitingHighEmits :=
  fun s => ⟨_, _, step_eq_fed s, s.fed_outputs _, feed_output_isSome_iff s.state s.low s.ports.event⟩

/-- Settles O8: a word that decodes to NOBYTE is that operation's encoding, whose upper two bits are clear. -/
theorem noByteChangesNeitherRegister : Obligations.NoByteChangesNeitherRegister := by
  refine ⟨fun w => ⟨?_, fun ⟨hrst, hvalid⟩ => ⟨_, _, decode_of_no_byte hrst hvalid⟩⟩, fun _ _ _ => rfl⟩
  rintro ⟨st, b, hdecode⟩
  obtain ⟨-, rfl⟩ := decode_eq_iff.mp hdecode
  rw [encode_noByte]
  exact ⟨StepWord.rst_pack .., StepWord.inValid_pack ..⟩

end Sys2Proof.Machine

/-! ## Runs compose (42_step_and_stream.md R58, R59) -/

namespace Sys2Proof.Machine

@[simp] theorem length_feedAll_outputs (st : ParserState) (low : Word) (evs : List Event) :
    (feedAll st low evs).2.length = evs.length := by
  induction evs generalizing st low with
  | nil => rfl
  | cons ev evs ih => simp [ih]

@[simp] theorem length_outputsOf (s : State) (ins : List PortIn) : (s.outputsOf ins).length = ins.length := by
  simp [outputsOf_eq_feedAll]

theorem outputs_after (s : State) (ins : List PortIn) : (s.after ins).outputs = s.outputs ++ s.outputsOf ins := by
  rw [outputsOf_eq_feedAll, after_eq_feedAll]

theorem State.outputsOf_cons (s : State) (p : PortIn) (ins : List PortIn) :
    s.outputsOf (p :: ins) = (feed s.state s.low p.event).2 :: (s.fed p.event).outputsOf ins := by
  simp [outputsOf_eq_feedAll]

/-- The samples left from before a run are not looked at in it. -/
theorem State.after_presented (s : State) (ins ins' : List PortIn) : (s.presented ins').after ins = s.after ins := by
  simp [after_eq_feedAll]

theorem State.after_append (s : State) (xs ys : List PortIn) : s.after (xs ++ ys) = (s.after xs).after ys := by
  induction xs generalizing s with
  | nil => rw [List.nil_append, State.after_nil, State.after_presented]
  | cons p xs ih => rw [List.cons_append, State.after_cons, State.after_cons, ih]

theorem State.outputsOf_append (s : State) (xs ys : List PortIn) :
    s.outputsOf (xs ++ ys) = s.outputsOf xs ++ (s.after xs).outputsOf ys := by
  have houts := congrArg State.outputs (s.after_append xs ys)
  rw [outputs_after, outputs_after, outputs_after, List.append_assoc] at houts
  exact List.append_cancel_left houts

theorem State.take_outputsOf_append (s : State) (xs ys : List PortIn) :
    (s.outputsOf (xs ++ ys)).take xs.length = s.outputsOf xs := by
  rw [State.outputsOf_append, List.take_left' (length_outputsOf s xs)]

/-- Settles O35: the outputs of the first samples, one each, stand in front of what follows. -/
theorem prefixDoesNotDependOnWhatFollows : Obligations.PrefixDoesNotDependOnWhatFollows := by
  intro s xs ys zs
  refine ⟨s.after_append xs ys, s.outputsOf_append xs ys, ?_⟩
  rw [State.take_outputsOf_append, State.take_outputsOf_append]

/-- Settles O36: `run_eq_feedAll`, the induction over the samples that ties every run to the table. -/
theorem runIsTheFoldOfTheStepFunction : Obligations.RunIsTheFoldOfTheStepFunction :=
  run_eq_feedAll

theorem exists_run_eq_next (n : Nat) (s : State) : ∃ t, Sys2Proof.core.run n s = .next t := by
  induction n generalizing s with
  | zero => exact ⟨s, run_zero s⟩
  | succ n ih =>
    rw [run_succ n (step_eq_fed s)]
    exact ih _

theorem run_eq_after (s : State) (ins : List PortIn) :
    Sys2Proof.core.run ins.length (s.presented ins) = .next (s.after ins) := by
  obtain ⟨t, ht⟩ := exists_run_eq_next ins.length (s.presented ins)
  rw [ht, after_of_run ht]

/-- Settles O37: a run answers a state because each of its steps does. -/
theorem runsNeverStop : Obligations.RunsNeverStop :=
  ⟨exists_run_eq_next, fun s ins => ⟨run_eq_after s ins, length_outputsOf s ins, outputs_after s ins⟩⟩

end Sys2Proof.Machine

/-! ## `NoByte` events are transparent (42_step_and_stream.md R69) -/

namespace Sys2Proof.Machine

theorem feedAll_filter_noByte (st : ParserState) (low : Word) (ins : List PortIn) :
    feedAll st low ((ins.filter fun p => p.event ≠ .noByte).map PortIn.event) =
      ((feedAll st low (ins.map PortIn.event)).1,
        ((ins.zip (feedAll st low (ins.map PortIn.event)).2).filter fun e => e.1.event ≠ .noByte).map Prod.snd) := by
  induction ins generalizing st low with
  | nil => rfl
  | cons p ins ih =>
    by_cases hp : p.event = .noByte
    · simpa [hp] using ih st low
    · simpa [hp] using Prod.ext_iff.mp (ih _ _)

theorem output_eq_none_of_noByte (st : ParserState) (low : Word) (ins : List PortIn) :
    ∀ e ∈ ins.zip (feedAll st low (ins.map PortIn.event)).2, e.1.event = .noByte → e.2 = none := by
  induction ins generalizing st low with
  | nil => exact nofun
  | cons p ins ih =>
    intro e he hev
    rw [List.map_cons, feedAll_cons, List.zip_cons_cons] at he
    rcases List.mem_cons.mp he with rfl | htail
    · exact congrArg (fun ev => (feed st low ev).2) hev
    · exact ih _ _ e htail hev

/-- Dropping entries whose output is `none` drops no reading. -/
theorem readings_map_snd_filter {α : Type} {keep : α × Option Reading → Bool} {es : List (α × Option Reading)}
    (h : ∀ e ∈ es, keep e = false → e.2 = none) :
    readings ((es.filter keep).map Prod.snd) = readings (es.map Prod.snd) := by
  induction es with
  | nil => rfl
  | cons e es ih =>
    obtain ⟨hhead, htail⟩ := List.forall_mem_cons.mp h
    cases hkeep : keep e with
    | false => rw [List.filter_cons_of_neg (by simp [hkeep]), ih htail, List.map_cons, hhead hkeep, readings_none]
    | true =>
      rw [List.filter_cons_of_pos hkeep, List.map_cons, List.map_cons, ← List.singleton_append, readings_append,
        ih htail, ← readings_append, List.singleton_append]

/-- Settles O39: the fold of the table passes over `NoByte` events, and the outputs it leaves out are none. -/
theorem noByteEventsAreTransparent : Obligations.NoByteEventsAreTransparent := by
  intro s ins
  have hnone := output_eq_none_of_noByte s.state s.low ins
  have hreadings := readings_map_snd_filter (keep := fun e => e.1.event ≠ .noByte)
    fun e he hdrop => hnone e he (by simpa using hdrop)
  rw [List.map_snd_zip (by simp)] at hreadings
  rw [outputsOf_eq_feedAll, outputsOf_eq_feedAll, after_eq_feedAll, after_eq_feedAll, feedAll_filter_noByte]
  exact ⟨rfl, rfl, hreadings, rfl, hnone⟩

end Sys2Proof.Machine

/-! ## Laws of streams (42_step_and_stream.md R62 to R64, R67, R68) -/

namespace Sys2Proof

/-- The bytes that lead to `Idle` by the shortest way (42_step_and_stream.md R68). -/
def ParserState.wayToIdle : ParserState → List Byte
  | .idle => []
  | .sawSync1 => [0x24#8]
  | .awaitingLow => [0x00#8, 0x00#8]
  | .awaitingHigh => [0x00#8]

end Sys2Proof

namespace Sys2Proof.Machine

/-- The state after a byte stream, by the table. -/
theorem after_samples_of_idle {s : State} (hs : s.state = .idle) (bs : List Byte) :
    s.after (samples bs) =
      { state := (feedAll .idle s.low (bs.map Event.byte)).1.1
        low := (feedAll .idle s.low (bs.map Event.byte)).1.2
        pending := []
        outputs := s.outputs ++ (feedAll .idle s.low (bs.map Event.byte)).2 } := by
  rw [after_eq_feedAll, samples_events, hs]

theorem outputs_after_launch (x : Word) (ins : List PortIn) :
    ((State.launch x []).after ins).outputs = (State.launch x []).outputsOf ins :=
  outputs_after _ _

theorem state_after_wayToIdle (s : State) : (s.after (samples s.state.wayToIdle)).state = .idle := by
  rw [after_eq_feedAll, samples_events]
  cases s.state <;> rfl

/-- Settles O38: the shortest way from each of the four control states. -/
theorem idleIsReachableWithinTwoBytes : Obligations.IdleIsReachableWithinTwoBytes := by
  intro s
  refine ⟨s.state.wayToIdle, state_after_wayToIdle s, ?_⟩
  cases s.state <;> decide

theorem feedAll_idle_of_forall_ne_sync1 (low : Word) {bs : List Byte} (h : ∀ b ∈ bs, b ≠ 0x24#8) :
    feedAll .idle low (bs.map Event.byte) = ((.idle, low), List.replicate bs.length none) := by
  induction bs with
  | nil => rfl
  | cons b bs ih =>
    obtain ⟨hhead, htail⟩ := List.forall_mem_cons.mp h
    have hskip : feed .idle low (.byte b) = ((.idle, low), none) := if_neg hhead
    rw [List.map_cons, feedAll_cons, hskip, ih htail, List.length_cons, List.replicate_succ]

/-- Settles O44: in `Idle` each of the bytes is skipped. -/
theorem bytesOtherThanSync1LeaveIdleAlone : Obligations.BytesOtherThanSync1LeaveIdleAlone := by
  intro s bs hs hbytes
  rw [after_samples_of_idle hs, feedAll_idle_of_forall_ne_sync1 s.low hbytes]

/-- The bytes of frames with the given payloads, back to back (30_encoding.md R36). -/
def frameBytes (fs : List (Byte × Byte)) : List Byte := fs.flatMap fun f => [0x24#8, 0x4D#8, f.1, f.2]

theorem frameBytes_cons (f : Byte × Byte) (fs : List (Byte × Byte)) :
    frameBytes (f :: fs) = 0x24#8 :: 0x4D#8 :: f.1 :: f.2 :: frameBytes fs := rfl

theorem length_frameBytes (fs : List (Byte × Byte)) : (frameBytes fs).length = 4 * fs.length := by
  induction fs with
  | nil => rfl
  | cons f fs ih =>
    simp only [frameBytes_cons, List.length_cons, ih]
    omega

theorem feedAll_idle_frameBytes (low : Word) (fs : List (Byte × Byte)) :
    feedAll .idle low ((frameBytes fs).map Event.byte) =
      ((.idle, (fs.getLast?.map fun f => zext16 f.1).getD low),
        fs.flatMap fun f => [none, none, none, some (zext16 f.1)]) := by
  induction fs generalizing low with
  | nil => rfl
  | cons f fs ih =>
    have hlast : ((f :: fs).getLast?.map fun f => zext16 f.1).getD low =
        (fs.getLast?.map fun f => zext16 f.1).getD (zext16 f.1) := by
      rw [List.getLast?_cons]
      cases fs.getLast? <;> rfl
    rw [frameBytes_cons, List.map_cons, List.map_cons, List.map_cons, List.map_cons, feedAll_idle_frame, ih, hlast]
    rfl

/-- Settles O45: the frame law in front of any stream, once for each frame. -/
theorem backToBackFramesGiveTheirLowBytes : Obligations.BackToBackFramesGiveTheirLowBytes := by
  intro s fs hs
  exact (after_samples_of_idle hs (frameBytes fs)).trans (by rw [feedAll_idle_frameBytes]; rfl)

/-- 40_sync_detect.md R50: after a failed candidate the block is back where it was, whatever the second byte is. -/
theorem feedAll_idle_resync (low : Word) {c : Byte} (hc : c ≠ 0x4D#8) (evs : List Event) :
    feedAll .idle low (.byte 0x24#8 :: .byte c :: evs) =
      ((feedAll .idle low evs).1, none :: none :: (feedAll .idle low evs).2) := by
  have hsync1 : feed .idle low (.byte 0x24#8) = ((.sawSync1, low), none) := rfl
  have hresync : feed .sawSync1 low (.byte c) = ((.idle, low), none) := if_neg hc
  simp [hsync1, hresync]

/-- Settles O46: a failed candidate, then nothing or a frame. -/
theorem resyncThenFrameGivesTheReading : Obligations.ResyncThenFrameGivesTheReading := by
  intro s c l h hs hc
  rw [after_samples_of_idle hs, after_samples_of_idle hs, List.map_cons, List.map_cons, feedAll_idle_resync s.low hc,
    List.map_cons, List.map_cons, feedAll_idle_resync s.low hc]
  refine ⟨rfl, ?_⟩
  simp only [List.map_cons, List.map_nil, feedAll_idle_frame, feedAll_nil]
  rfl

/-- Settles O49: in the first stream two bytes `0x24` cancel, `0x4D` is noise and two bytes are too few for a frame; in
the second a frame with low byte `0x24` comes first, and two bytes are left. -/
theorem recognitionDependsOnWhereTheBlockStands : Obligations.RecognitionDependsOnWhereTheBlockStands := by
  intro x
  rw [after_samples_of_idle (State.launch_state x []), after_samples_of_idle (State.launch_state x [])]
  simp only [List.map_cons, List.map_nil, State.launch_outputs, List.nil_append]
  constructor
  · rw [feedAll_idle_sync1_sync1, feedAll_idle_sync2, feedAll_idle_two_bytes_outputs]
  · rw [feedAll_idle_frame, feedAll_idle_two_bytes_outputs]
    rfl

end Sys2Proof.Machine

/-! ## The state before each byte of a stream, and the frame that a reading ends (42_step_and_stream.md R61, R65) -/

namespace Sys2Proof.Machine

/-- The state in which the byte `bs[i]` of a stream is met. -/
def State.beforeByte (s : State) (bs : List Byte) (i : Nat) : State := s.after (samples (bs.take i))

theorem State.beforeByte_zero (s : State) (bs : List Byte) : s.beforeByte bs 0 = s.presented [] := rfl

theorem State.beforeByte_succ (s : State) {bs : List Byte} {i : Nat} {b : Byte} (h : bs[i]? = some b) :
    s.beforeByte bs (i + 1) = (s.beforeByte bs i).fed (.byte b) := by
  have hpending : (s.beforeByte bs i).pending = [] := by rw [State.beforeByte, after_eq_feedAll]
  rw [State.beforeByte, List.take_add_one, h, Option.toList_some, samples_append, State.after_append, samples_cons,
    State.after_cons, samples_nil, State.after_nil]
  rw [← State.beforeByte, PortIn.event_ofByte, State.presented, State.fed, hpending, List.tail_nil]

theorem State.state_beforeByte_succ (s : State) {bs : List Byte} {i : Nat} {b : Byte} (h : bs[i]? = some b) :
    (s.beforeByte bs (i + 1)).state = (feed (s.beforeByte bs i).state (s.beforeByte bs i).low (.byte b)).1.1 := by
  rw [s.beforeByte_succ h, State.fed_state]

/-- The output of a sample's step is the table's, in the state that the samples before it lead to. -/
theorem getElem?_outputsOf (s : State) {ins : List PortIn} {i : Nat} {p : PortIn} (h : ins[i]? = some p) :
    (s.outputsOf ins)[i]? = some (feed (s.after (ins.take i)).state (s.after (ins.take i)).low p.event).2 := by
  induction ins generalizing s i with
  | nil => cases h
  | cons q ins ih =>
    rw [State.outputsOf_cons]
    cases i with
    | zero =>
      obtain rfl : q = p := Option.some.inj h
      rfl
    | succ i =>
      rw [List.getElem?_cons_succ, List.take_succ_cons, State.after_cons]
      exact ih _ h

/-- 42_step_and_stream.md R60, for the bytes of a stream. -/
theorem outputsOf_samples_emits_iff (s : State) {bs : List Byte} {i : Nat} (hi : i < bs.length) (v : Reading) :
    (s.outputsOf (samples bs))[i]? = some (some v) ↔
      (s.beforeByte bs i).state = .awaitingHigh ∧ v = (s.beforeByte bs i).low := by
  have hsample : (samples bs)[i]? = some (PortIn.ofByte bs[i]) := by simp [samples, hi]
  have htake : (samples bs).take i = samples (bs.take i) := List.map_take.symm
  rw [getElem?_outputsOf s hsample, htake, ← State.beforeByte, PortIn.event_ofByte, Option.some_inj]
  constructor
  · exact awaitingHigh_and_eq_low_of_feed_emits
  · rintro ⟨hstate, rfl⟩
    rw [hstate, feed_awaitingHigh_byte]

theorem feed_byte_state_eq_idle_iff (st : ParserState) (low : Word) (b : Byte) :
    (feed st low (.byte b)).1.1 = .idle ↔
      (st = .idle ∧ b ≠ 0x24#8) ∨ (st = .sawSync1 ∧ b ≠ 0x4D#8) ∨ st = .awaitingHigh := by
  cases st with
  | idle => simp [feed_idle_byte_state]
  | sawSync1 => simp [feed_sawSync1_byte_state]
  | awaitingLow => simp
  | awaitingHigh => simp

theorem feed_byte_state_eq_sawSync1_iff (st : ParserState) (low : Word) (b : Byte) :
    (feed st low (.byte b)).1.1 = .sawSync1 ↔ st = .idle ∧ b = 0x24#8 := by
  cases st with
  | idle => simp [feed_idle_byte_state]
  | sawSync1 => rw [feed_sawSync1_byte_state]; split <;> simp
  | awaitingLow => simp
  | awaitingHigh => simp

theorem feed_byte_state_eq_awaitingLow_iff (st : ParserState) (low : Word) (b : Byte) :
    (feed st low (.byte b)).1.1 = .awaitingLow ↔ st = .sawSync1 ∧ b = 0x4D#8 := by
  cases st with
  | idle => rw [feed_idle_byte_state]; split <;> simp
  | sawSync1 => simp [feed_sawSync1_byte_state]
  | awaitingLow => simp
  | awaitingHigh => simp

theorem feed_byte_state_eq_awaitingHigh_iff (st : ParserState) (low : Word) (b : Byte) :
    (feed st low (.byte b)).1.1 = .awaitingHigh ↔ st = .awaitingLow := by
  cases st with
  | idle => rw [feed_idle_byte_state]; split <;> simp
  | sawSync1 => rw [feed_sawSync1_byte_state]; split <;> simp
  | awaitingLow => simp
  | awaitingHigh => simp

/-- From `Idle` on, another control state is one that a byte has led to. -/
theorem exists_byte_of_state_ne_idle {s : State} (hs : s.state = .idle) {bs : List Byte} {j : Nat}
    (hj : j ≤ bs.length) (hne : (s.beforeByte bs j).state ≠ .idle) : ∃ i b, j = i + 1 ∧ bs[i]? = some b := by
  cases j with
  | zero => exact absurd hs hne
  | succ i => exact ⟨i, bs[i], rfl, List.getElem?_eq_getElem hj⟩

/-- A frame with low byte `l` begins at `i`: the block is in `Idle` there, and the marker and `l` follow. -/
structure FrameAt (s : State) (bs : List Byte) (i : Nat) (l : Byte) : Prop where
  idle : (s.beforeByte bs i).state = .idle
  sync1 : bs[i]? = some 0x24#8
  sync2 : bs[i + 1]? = some 0x4D#8
  low : bs[i + 2]? = some l

namespace FrameAt

variable {s : State} {bs : List Byte} {i : Nat} {l : Byte}

theorem sawSync1 (h : FrameAt s bs i l) : (s.beforeByte bs (i + 1)).state = .sawSync1 := by
  rw [s.state_beforeByte_succ h.sync1, h.idle]
  rfl

theorem awaitingLow (h : FrameAt s bs i l) : (s.beforeByte bs (i + 2)).state = .awaitingLow := by
  rw [s.state_beforeByte_succ h.sync2, h.sawSync1]
  rfl

theorem awaitingHigh (h : FrameAt s bs i l) : (s.beforeByte bs (i + 3)).state = .awaitingHigh := by
  rw [s.state_beforeByte_succ h.low, h.awaitingLow, feed_awaitingLow_byte]

theorem low_eq (h : FrameAt s bs i l) : (s.beforeByte bs (i + 3)).low = zext16 l := by
  rw [s.beforeByte_succ h.low, State.fed_low, h.awaitingLow, feed_awaitingLow_byte]

end FrameAt

/-- From `Idle` on, the only way to `AwaitingHigh` is three bytes of a frame. -/
theorem exists_frameAt_of_awaitingHigh {s : State} (hs : s.state = .idle) {bs : List Byte} {j : Nat}
    (hj : j ≤ bs.length) (hstate : (s.beforeByte bs j).state = .awaitingHigh) :
    ∃ i l, j = i + 3 ∧ FrameAt s bs i l := by
  obtain ⟨k, l, rfl, hl⟩ := exists_byte_of_state_ne_idle hs hj (by rw [hstate]; nofun)
  rw [s.state_beforeByte_succ hl, feed_byte_state_eq_awaitingHigh_iff] at hstate
  obtain ⟨m, b, rfl, hb⟩ := exists_byte_of_state_ne_idle hs (Nat.le_of_succ_le hj) (by rw [hstate]; nofun)
  rw [s.state_beforeByte_succ hb, feed_byte_state_eq_awaitingLow_iff] at hstate
  obtain ⟨hstate, rfl⟩ := hstate
  obtain ⟨i, a, rfl, ha⟩ :=
    exists_byte_of_state_ne_idle hs (Nat.le_of_succ_le (Nat.le_of_succ_le hj)) (by rw [hstate]; nofun)
  rw [s.state_beforeByte_succ ha, feed_byte_state_eq_sawSync1_iff] at hstate
  obtain ⟨hidle, rfl⟩ := hstate
  exact ⟨i, l, rfl, hidle, ha, hb, hl⟩

/-- The emission law: the step of a byte emits exactly when it ends a frame, and then the frame's low byte. -/
theorem outputsOf_samples_emits_iff_frameAt {s : State} (hs : s.state = .idle) {bs : List Byte} {j : Nat}
    (hj : j < bs.length) (v : Reading) :
    (s.outputsOf (samples bs))[j]? = some (some v) ↔ ∃ i l, j = i + 3 ∧ FrameAt s bs i l ∧ v = zext16 l := by
  rw [outputsOf_samples_emits_iff s hj]
  constructor
  · rintro ⟨hstate, hv⟩
    obtain ⟨i, l, rfl, hframe⟩ := exists_frameAt_of_awaitingHigh hs hj.le hstate
    exact ⟨i, l, rfl, hframe, hv.trans hframe.low_eq⟩
  · rintro ⟨i, l, rfl, hframe, rfl⟩
    exact ⟨hframe.awaitingHigh, hframe.low_eq.symm⟩

/-- The table's four rows that lead to `Idle`, at each place of a stream fed in `Idle`. -/
theorem state_beforeByte_eq_idle_iff {s : State} (hs : s.state = .idle) {bs : List Byte} {j : Nat}
    (hj : j ≤ bs.length) :
    (s.beforeByte bs j).state = .idle ↔
      j = 0 ∨ ∃ b, bs[j - 1]? = some b ∧
        (((s.beforeByte bs (j - 1)).state = .idle ∧ b ≠ 0x24#8) ∨
         ((s.beforeByte bs (j - 1)).state = .sawSync1 ∧ b ≠ 0x4D#8) ∨
         (s.beforeByte bs (j - 1)).state = .awaitingHigh) := by
  cases j with
  | zero => exact iff_of_true hs (.inl rfl)
  | succ i =>
    have hb : bs[i]? = some bs[i] := List.getElem?_eq_getElem hj
    rw [s.state_beforeByte_succ hb, feed_byte_state_eq_idle_iff, Nat.add_sub_cancel, hb]
    simp

/-- Settles O43: the emission law, and the table's rows that lead to `Idle`. -/
theorem readingEmittedExactlyByAConsumedFrame : Obligations.ReadingEmittedExactlyByAConsumedFrame := by
  intro x bs
  refine ⟨fun i v hi => ?_, fun j hj => state_beforeByte_eq_idle_iff (State.launch_state x []) hj⟩
  rw [outputs_after_launch, outputsOf_samples_emits_iff_frameAt (State.launch_state x []) hi]
  constructor
  · rintro ⟨k, l, rfl, hframe, hv⟩
    exact ⟨Nat.le_add_left 3 k, hframe.idle, hframe.sync1, hframe.sync2, l, hframe.low, hv⟩
  · rintro ⟨hle, hidle, hsync1, hsync2, l, hlow, hv⟩
    obtain ⟨k, rfl⟩ := Nat.exists_eq_add_of_le' hle
    exact ⟨k, l, rfl, ⟨hidle, hsync1, hsync2, hlow⟩, hv⟩

/-- The place of a reading is one of the stream's bytes. -/
theorem lt_length_of_emits {s : State} {bs : List Byte} {i : Nat} {o : Option Reading}
    (h : (s.outputsOf (samples bs))[i]? = some o) : i < bs.length := by
  obtain ⟨hi, -⟩ := List.getElem?_eq_some_iff.mp h
  rwa [length_outputsOf, samples_length] at hi

theorem readings_eq_nil_iff {os : List (Option Reading)} : readings os = [] ↔ ∀ v, some v ∉ os := by
  rw [readings, List.filterMap_eq_nil_iff]
  constructor
  · exact fun h v hv => nomatch h _ hv
  · exact fun h o ho => Option.eq_none_iff_forall_ne_some.mpr fun v hv => h v (hv ▸ ho)

/-- Settles O47: a reading ends a frame, whose marker has two bytes behind it; the converse fails on the first stream of
42_step_and_stream.md R67. -/
theorem noMarkerBeforeTwoBytesNoReading : Obligations.NoMarkerBeforeTwoBytesNoReading := by
  constructor
  · intro x bs hnone
    rw [outputs_after_launch, readings_eq_nil_iff]
    intro v hv
    obtain ⟨j, hj⟩ := List.mem_iff_getElem?.mp hv
    have hlt := lt_length_of_emits hj
    obtain ⟨i, l, rfl, hframe, -⟩ := (outputsOf_samples_emits_iff_frameAt (State.launch_state x []) hlt v).mp hj
    exact hnone ⟨i, hlt, hframe.sync1, hframe.sync2⟩
  · refine ⟨[0x24#8, 0x24#8, 0x4D#8, 0x02#8, 0x00#8], ⟨1, by decide⟩, fun x => ?_⟩
    rw [(recognitionDependsOnWhereTheBlockStands x).1]
    rfl

end Sys2Proof.Machine

/-! ## The spacing law (42_step_and_stream.md R66) -/

namespace Sys2Proof

/-- How many bytes of a frame in progress have been consumed. -/
def ParserState.frameProgress : ParserState → Nat
  | .idle => 0
  | .sawSync1 => 1
  | .awaitingLow => 2
  | .awaitingHigh => 3

end Sys2Proof

namespace Sys2Proof.Machine

/-- An event adds at most one byte to the frame in progress, and a reading uses up four. -/
theorem feed_frameProgress_le (st : ParserState) (low : Word) (ev : Event) :
    4 * (readings [(feed st low ev).2]).length + (feed st low ev).1.1.frameProgress ≤ st.frameProgress + 1 := by
  cases ev with
  | reset => exact Nat.zero_le _
  | noByte => simp
  | byte b =>
    cases st with
    | idle =>
      rw [feed_output_of_ne_awaitingHigh (st := .idle) nofun, feed_idle_byte_state]
      split <;> decide
    | sawSync1 =>
      rw [feed_output_of_ne_awaitingHigh (st := .sawSync1) nofun, feed_sawSync1_byte_state]
      split <;> decide
    | awaitingLow => exact Nat.le_refl 3
    | awaitingHigh => exact Nat.le_refl 4

theorem feedAll_frameProgress_le (st : ParserState) (low : Word) (evs : List Event) :
    4 * (readings (feedAll st low evs).2).length + (feedAll st low evs).1.1.frameProgress ≤
      st.frameProgress + evs.length := by
  induction evs generalizing st low with
  | nil => simp
  | cons ev evs ih =>
    have hhead := feed_frameProgress_le st low ev
    have htail := ih (feed st low ev).1.1 (feed st low ev).1.2
    simp only [feedAll_cons, List.length_cons]
    rw [← List.singleton_append, readings_append, List.length_append]
    omega

theorem length_readings_outputsOf_samples_le {s : State} (hs : s.state = .idle) (bs : List Byte) :
    (readings (s.outputsOf (samples bs))).length ≤ bs.length / 4 := by
  have hle := feedAll_frameProgress_le .idle s.low (bs.map Event.byte)
  rw [outputsOf_eq_feedAll, samples_events, hs]
  rw [List.length_map, ParserState.frameProgress] at hle
  omega

/-- A frame that begins at `k` has not reached its fourth byte at `i`, so a reading at `i` comes before it. -/
theorem FrameAt.lt_of_awaitingHigh {s : State} {bs : List Byte} {k i : Nat} {l : Byte} (h : FrameAt s bs k l)
    (hlt : i < k + 3) (hstate : (s.beforeByte bs i).state = .awaitingHigh) : i < k := by
  by_contra hge
  have hcases : i = k ∨ i = k + 1 ∨ i = k + 2 := by omega
  rcases hcases with rfl | rfl | rfl
  · exact nomatch h.idle.symm.trans hstate
  · exact nomatch h.sawSync1.symm.trans hstate
  · exact nomatch h.awaitingLow.symm.trans hstate

theorem four_le_between_readings {s : State} (hs : s.state = .idle) {bs : List Byte} {i j : Nat} {v w : Reading}
    (hij : i < j) (hi : (s.outputsOf (samples bs))[i]? = some (some v))
    (hj : (s.outputsOf (samples bs))[j]? = some (some w)) : i + 4 ≤ j := by
  obtain ⟨hstate, -⟩ := (outputsOf_samples_emits_iff s (lt_length_of_emits hi) v).mp hi
  obtain ⟨k, l, rfl, hframe, -⟩ := (outputsOf_samples_emits_iff_frameAt hs (lt_length_of_emits hj) w).mp hj
  have hbefore := hframe.lt_of_awaitingHigh hij hstate
  omega

theorem idle_after_reading {s : State} {bs : List Byte} {i : Nat} {v : Reading}
    (h : (s.outputsOf (samples bs))[i]? = some (some v)) : (s.beforeByte bs (i + 1)).state = .idle := by
  have hi := lt_length_of_emits h
  obtain ⟨hstate, -⟩ := (outputsOf_samples_emits_iff s hi v).mp h
  rw [s.state_beforeByte_succ (List.getElem?_eq_getElem hi), hstate, feed_awaitingHigh_byte]

theorem length_readings_frameOutputs (fs : List (Byte × Byte)) :
    (readings (fs.flatMap fun f => [none, none, none, some (zext16 f.1)])).length = fs.length := by
  induction fs with
  | nil => rfl
  | cons f fs ih => simpa using ih

/-- Settles O48: the bytes of the frame in progress bound the readings; two readings end two frames, of which the later
begins after the earlier one's end; frames back to back give one reading each. -/
theorem readingsAreFourBytesApart : Obligations.ReadingsAreFourBytesApart := by
  constructor
  · intro x bs
    rw [outputs_after_launch]
    exact ⟨length_readings_outputsOf_samples_le (State.launch_state x []) bs,
      fun _ _ _ _ => four_le_between_readings (State.launch_state x []), fun _ _ => idle_after_reading⟩
  · intro x fs
    change (readings ((State.launch x []).after (samples (frameBytes fs))).outputs).length = (frameBytes fs).length / 4
    rw [outputs_after_launch, outputsOf_eq_feedAll, samples_events, State.launch_state, feedAll_idle_frameBytes,
      length_readings_frameOutputs, length_frameBytes, Nat.mul_div_cancel_left _ (by decide)]

end Sys2Proof.Machine

/-! ## Gaps, payload bytes and port priority (60_exceptions.md R74, R78, R83) -/

namespace Sys2Proof.Machine

/-- 42_step_and_stream.md R56: a run of `NoByte` events. -/
theorem feedAll_replicate_noByte (st : ParserState) (low : Word) (n : Nat) :
    feedAll st low (List.replicate n .noByte) = ((st, low), List.replicate n none) := by
  induction n with
  | zero => rfl
  | succ n ih => rw [List.replicate_succ, feedAll_cons, feed_noByte, ih, List.replicate_succ]

/-- The events of samples without a byte: what they carry on `in_byte` is gone. -/
theorem gaps_events (junk : List Byte) :
    (junk.map PortIn.gap).map PortIn.event = List.replicate junk.length .noByte := by
  rw [List.map_map]
  exact List.map_const'

theorem after_gaps (s : State) (junk : List Byte) :
    s.after (junk.map PortIn.gap) =
      { state := s.state, low := s.low, pending := [], outputs := s.outputs ++ List.replicate junk.length none } := by
  rw [after_eq_feedAll, gaps_events, feedAll_replicate_noByte]

/-- Settles O40: the gaps leave both registers alone, so the byte after them still meets `AwaitingHigh`. -/
theorem gapsNeverAbandonAFrame : Obligations.GapsNeverAbandonAFrame := by
  refine fun s junk => ⟨after_gaps s junk, fun b hstate => ?_⟩
  rw [State.after_append, after_gaps, hstate, after_eq_feedAll, List.map_singleton, PortIn.event_ofByte, feedAll_cons,
    feed_awaitingHigh_byte, feedAll_nil]

/-- Without a `Reset` and without a byte a run ends in the control state in which it began. -/
theorem state_after_of_no_byte (s : State) {ins : List PortIn} (hreset : ∀ p ∈ ins, p.event ≠ .reset)
    (hbytes : (ins.filterMap fun p => p.event.byte?) = []) : (s.after ins).state = s.state := by
  have hevents : Event.reset ∉ ins.map PortIn.event := by simpa using hreset
  rw [after_eq_feedAll, feedAll_of_no_byte s.state s.low hevents (List.filterMap_map.trans hbytes)]

/-- Without a `Reset` one byte leads from `AwaitingLow` to `AwaitingHigh`, wherever it stands among the samples. -/
theorem state_after_of_one_byte {s : State} (hs : s.state = .awaitingLow) {ins : List PortIn} {b : Byte}
    (hreset : ∀ p ∈ ins, p.event ≠ .reset) (hbytes : (ins.filterMap fun p => p.event.byte?) = [b]) :
    (s.after ins).state = .awaitingHigh := by
  have hevents : Event.reset ∉ ins.map PortIn.event := by simpa using hreset
  rw [after_eq_feedAll, hs, feedAll_awaitingLow_of_one_byte s.low hevents (List.filterMap_map.trans hbytes)]

/-- Settles O41: without a byte the block waits in either state; in `AwaitingLow` one byte is the low payload byte. -/
theorem onlyResetLeavesAFrameEarly : Obligations.OnlyResetLeavesAFrameEarly := by
  refine fun s ins hreset => ⟨fun hs hnone => ?_, fun hs hone => ?_, fun hs hnone => ?_⟩
  · exact (state_after_of_no_byte s hreset (List.length_eq_zero_iff.mp hnone)).trans hs
  · obtain ⟨b, hb⟩ := List.length_eq_one_iff.mp hone
    exact state_after_of_one_byte hs hreset hb
  · exact (state_after_of_no_byte s hreset (List.length_eq_zero_iff.mp hnone)).trans hs

/-- 60_exceptions.md R74: with neither `rst` nor `in_valid` the event is `NoByte`, whatever is on `in_byte`. -/
theorem PortIn.event_of_no_byte {p : PortIn} (hrst : p.rst = false) (hvalid : p.inValid = false) :
    p.event = .noByte := by
  simp [PortIn.event, hrst, hvalid]

theorem PortIn.event_of_byte {p : PortIn} (hrst : p.rst = false) (hvalid : p.inValid = true) :
    p.event = .byte p.inByte := by
  simp [PortIn.event, hrst, hvalid]

/-- Settles O26: the ports pick the event, and the step is the event's row of the table. -/
theorem portPriorityPicksTheEvent : Obligations.PortPriorityPicksTheEvent := by
  intro s p rest hpending
  have hstep := stepFollowsTheTransitionTable s p rest hpending
  refine ⟨rfl, fun hrst => ?_, fun hrst hvalid => ?_, fun hrst hvalid hstate => ?_⟩
  · rw [hstep, PortIn.event_of_rst hrst, feed_reset]
  · rw [hstep, PortIn.event_of_no_byte hrst hvalid, feed_noByte]
  · rw [hstep, PortIn.event_of_byte hrst hvalid, hstate, feed_awaitingHigh_byte]

end Sys2Proof.Machine

/-! ## Reset (70_reset_and_hazards.md R84, R86) -/

namespace Sys2Proof.Machine

/-- Settles O7: a word that decodes to RESET is that operation's encoding, whose bit 11 is set. -/
theorem resetGoesToIdleAndKeepsLow : Obligations.ResetGoesToIdleAndKeepsLow := by
  refine ⟨fun w => ⟨?_, fun hrst => ⟨_, _, _, decode_of_rst hrst⟩⟩, fun _ _ _ _ => rfl⟩
  rintro ⟨v, st, b, hdecode⟩
  obtain ⟨-, rfl⟩ := decode_eq_iff.mp hdecode
  rw [encode_reset]
  exact StepWord.rst_pack ..

/-- The table's two rows of a byte in `Idle` (40_sync_detect.md R47, R48). -/
theorem feed_idle_byte (low : Word) (b : Byte) :
    feed .idle low (.byte b) = ((if b = 0x24#8 then .sawSync1 else .idle, low), none) := by
  rw [feed]; split <;> rfl

theorem after_reset (s : State) {p : PortIn} (h : p.rst = true) :
    s.after [p] = { state := .idle, low := s.low, pending := [], outputs := s.outputs ++ [none] } := by
  rw [after_eq_feedAll, List.map_singleton, PortIn.event_of_rst h, feedAll_cons, feed_reset, feedAll_nil]

/-- Settles O42: the byte after a `Reset` meets the state that the `Reset` leaves, which is in `Idle`. -/
theorem resetDiscardsAFrameInProgress : Obligations.ResetDiscardsAFrameInProgress := by
  refine fun s v junk b => ⟨after_reset s rfl, ?_⟩
  rw [← List.singleton_append, State.after_append, after_reset s rfl, after_eq_feedAll, List.map_singleton,
    PortIn.event_ofByte, feedAll_cons, feed_idle_byte, feedAll_nil, List.append_assoc, List.singleton_append]

end Sys2Proof.Machine

/-! ## False sync, stray sync bytes and the dropped high byte (70_reset_and_hazards.md R91, R92, R95) -/

namespace Sys2Proof.Machine

/-- From `Idle` two bytes reach `AwaitingLow` at most, so neither of them is captured. -/
theorem feedAll_idle_two_bytes_low (low : Word) (b c : Byte) :
    (feedAll .idle low [.byte b, .byte c]).1.2 = low := by
  have hfirst : (feed .idle low (.byte b)).1.1 ≠ .awaitingLow :=
    fun hstate => nomatch ((feed_byte_state_eq_awaitingLow_iff .idle low b).mp hstate).1
  rw [feedAll_cons, feedAll_cons, feedAll_nil, feed_low_of_not_capture _ (.inl hfirst), feed_idle_byte]

/-- Settles O50: the false marker and the true one are a frame with low byte `0x24`; the two bytes left are too few for
another. -/
theorem falseSyncSwallowsTheRealMarker : Obligations.FalseSyncSwallowsTheRealMarker := by
  intro s l h hs
  rw [outputsOf_eq_feedAll, samples_events, hs, after_samples_of_idle hs]
  simp only [List.map_cons, List.map_nil, feedAll_idle_frame, feedAll_idle_two_bytes_outputs,
    feedAll_idle_two_bytes_low]
  exact ⟨rfl, rfl⟩

/-- 40_sync_detect.md R50: bytes `0x24` in `Idle` cancel in pairs, in front of any stream. -/
theorem feedAll_idle_even_sync1 (low : Word) (k : Nat) (evs : List Event) :
    feedAll .idle low (List.replicate (2 * k) (.byte 0x24#8) ++ evs) =
      ((feedAll .idle low evs).1, List.replicate (2 * k) none ++ (feedAll .idle low evs).2) := by
  induction k with
  | zero => rfl
  | succ k ih =>
    rw [Nat.mul_succ, List.replicate_succ, List.replicate_succ, List.cons_append, List.cons_append,
      feedAll_idle_sync1_sync1, ih]
    rfl

theorem readings_replicate_none (n : Nat) : readings (List.replicate n none) = [] :=
  readings_eq_nil_iff.mpr fun _ hv => nomatch List.eq_of_mem_replicate hv

/-- An even number of stray bytes `0x24` makes no difference to the readings of what follows. -/
theorem readings_outputsOf_even_sync1 {s : State} (hs : s.state = .idle) (k : Nat) (bs : List Byte) :
    readings (s.outputsOf (samples (List.replicate (2 * k) 0x24#8 ++ bs))) = readings (s.outputsOf (samples bs)) := by
  rw [outputsOf_eq_feedAll, outputsOf_eq_feedAll, samples_events, samples_events, hs, List.map_append,
    List.map_replicate, feedAll_idle_even_sync1, readings_append, readings_replicate_none, List.nil_append]

theorem outputsOf_frame {s : State} (hs : s.state = .idle) (l h : Byte) :
    s.outputsOf (samples [0x24#8, 0x4D#8, l, h]) = [none, none, none, some (zext16 l)] := by
  rw [outputsOf_eq_feedAll, samples_events, hs]
  exact congrArg Prod.snd (feedAll_idle_frame s.low l h [])

/-- A frame behind one stray `0x24` is lost: its own `0x24` fails the test for the second sync byte. -/
theorem outputsOf_sync1_frame {s : State} (hs : s.state = .idle) (l h : Byte) :
    s.outputsOf (samples [0x24#8, 0x24#8, 0x4D#8, l, h]) = [none, none, none, none, none] := by
  rw [outputsOf_eq_feedAll, samples_events, hs]
  simp only [List.map_cons, List.map_nil, feedAll_idle_sync1_sync1, feedAll_idle_sync2, feedAll_idle_two_bytes_outputs]

/-- Settles O51: the stray bytes cancel in pairs, which leaves the frame behind one of them or behind none. -/
theorem oddStraySync1LosesTheFrame : Obligations.OddStraySync1LosesTheFrame := by
  intro s n l h hs
  constructor
  · intro hodd
    obtain ⟨k, rfl⟩ := Nat.odd_iff.mpr hodd
    rw [List.replicate_succ', List.append_assoc, readings_outputsOf_even_sync1 hs, List.singleton_append,
      outputsOf_sync1_frame hs]
    rfl
  · intro heven
    obtain ⟨k, rfl⟩ := even_iff_exists_two_mul.mp (Nat.even_iff.mpr heven)
    rw [readings_outputsOf_even_sync1 hs, outputsOf_frame hs]
    rfl

theorem toNat_zext16_extractLsb' (d : BitVec 16) : (zext16 (d.extractLsb' 0 8)).toNat = d.toNat % 256 := by
  rw [toNat_zext16, BitVec.extractLsb'_toNat, Nat.shiftRight_zero]

/-- A frame without its fourth byte (41_payload.md R51). -/
theorem feedAll_idle_unfinished_frame (low : Word) (l : Byte) :
    feedAll .idle low [.byte 0x24#8, .byte 0x4D#8, .byte l] = ((.awaitingHigh, zext16 l), [none, none, none]) := rfl

/-- Settles O52: the reading is the zero extension of the lower eight bits, and comes in the fourth step only. -/
theorem readingIsTheDistanceModulo256 : Obligations.ReadingIsTheDistanceModulo256 := by
  intro s d hs
  refine ⟨⟨_, toNat_zext16_extractLsb' d, outputsOf_frame hs _ _⟩, ?_⟩
  rw [outputsOf_eq_feedAll, samples_events, hs, after_samples_of_idle hs, List.map_cons, List.map_cons,
    List.map_singleton, feedAll_idle_unfinished_frame]
  exact ⟨rfl, rfl⟩

end Sys2Proof.Machine

/-! ## A step with nothing presented (20_memory.md R34, log entry 4) -/

namespace Sys2Proof.Machine

/-- Settles O19: the quiet ports carry the event `NoByte`, whose row of the table keeps both registers. -/
theorem stepWithNothingPresentedIsNoByte : Obligations.StepWithNothingPresentedIsNoByte := by
  intro s hpending
  rw [step_eq_fed, State.ports_of_nil hpending, PortIn.event_quiet, State.fed, feed_noByte, hpending, List.tail_nil]

end Sys2Proof.Machine

/-! ## A step word placed for fetching (log entries 7 and 10) -/

namespace Sys2Proof

/-- Sixteen bits are two bytes, the lower one first. -/
theorem layOutWord_sixteen {n : Nat} (h : n < 2 ^ 16) :
    layOutWord 16 n = [BitVec.ofNat 8 n, BitVec.ofNat 8 (n / 2 ^ 8)] := by
  have hrange : List.range (max 2 ((16 + 7) / 8)) = [0, 1] := rfl
  rw [layOutWord, hrange, Nat.mod_eq_of_lt h, List.map_cons, List.map_singleton, Nat.mul_zero, Nat.pow_zero,
    Nat.div_one, Nat.mul_one]

theorem StepWord.toNat_lt_two_pow_sixteen (w : StepWord) : w.toNat < 2 ^ 16 :=
  w.isLt.trans (by decide)

/-- The second byte of a step word is its bits 11..8 with zeros above: twelve bits have nothing above bit 11. -/
theorem zero_append_extractLsb'_eq_ofNat_div (w : StepWord) :
    0#4 ++ w.extractLsb' 8 4 = BitVec.ofNat 8 (w.toNat / 2 ^ 8) := by
  have hlt : w.toNat / 2 ^ 8 < 2 ^ 4 := Nat.div_lt_of_lt_mul w.isLt
  apply BitVec.eq_of_toNat_eq
  rw [BitVec.toNat_append, BitVec.toNat_ofNat, Nat.zero_mod, Nat.zero_shiftLeft, Nat.zero_or,
    BitVec.extractLsb'_toNat, BitVec.toNat_ofNat, Nat.shiftRight_eq_div_pow, Nat.mod_eq_of_lt hlt,
    Nat.mod_eq_of_lt (hlt.trans (by decide))]

/-- The table's layout of a step word is the encoder's (log entry 10). -/
theorem layOutWord_encode (i : Instr) : layOutWord 16 (encode i).toNat = encodeBytes i := by
  rw [layOutWord_sixteen (StepWord.toNat_lt_two_pow_sixteen _), encodeBytes, zero_append_extractLsb'_eq_ofNat_div]
  rfl

/-- The decoder reads the layout back and leaves no byte over. -/
theorem decodeTableWord_encode (i : Instr) : decodeTableWord 16 (encode i).toNat = some (decode (encode i)) := by
  have hbytes : decodeBytes (encodeBytes i) = .ok (decode (encode i), []) := by
    simpa using decodeBytes_encodeBytes_append i []
  rw [decodeTableWord, layOutWord_encode, hbytes]
  rfl

end Sys2Proof

namespace Sys2Proof.Machine

/-- Every step word is small enough to be placed. -/
theorem State.withFetchWord_toNat (s : State) (w : StepWord) : s.withFetchWord 16 w.toNat = s.placeStepWord w := by
  have hmod : w.toNat % 2 ^ 16 = w.toNat := Nat.mod_eq_of_lt (StepWord.toNat_lt_two_pow_sixteen w)
  rw [State.withFetchWord, hmod, if_pos w.isLt, BitVec.ofNat_toNat, BitVec.setWidth_eq]

/-- Consuming the placed sample leaves the placed control state and the samples that were to come. -/
theorem step_placeStepWord (s : State) (w : StepWord) :
    step (s.placeStepWord w) = exec (decode w) (s.writeState (StepWord.control w)) := by
  rw [step, State.stepWord_placeStepWord]
  rfl

/-- Settles O29: a step word is the encoding of its operation, which the table decoder reads; placed, it is the packed word
of the next step. -/
theorem placedStepWordRunsNext : Obligations.PlacedStepWordRunsNext := by
  intro s w
  rw [State.withFetchWord_toNat]
  refine ⟨?_, State.stepWord_placeStepWord s w, step_placeStepWord s w⟩
  simpa only [encode_decode] using decodeTableWord_encode (decode w)

end Sys2Proof.Machine
